-- ==== Sys2Proof/Word.lean ====
section
/-!
DEFINITION. The scalar types of the machine: the 32-bit word, the byte of the host port and the register
index (00_scope.md R8, R11, R12; 10_state.md R21). Words are unsigned; bit 0 is the least significant bit.
-/

namespace Sys2Proof

/-- The VM's only scalar type: an unsigned 32-bit integer (00_scope.md R8, R12). -/
abbrev Word := BitVec 32

/-- A byte of the program image, of the pending output or of the host's input. -/
abbrev Byte := BitVec 8

/-- A register index 0..7 (00_scope.md R8, 30_encoding.md R93). -/
abbrev Reg := Fin 8

/-- The number of values of a word, 2^32. -/
def wordCount : Nat := 4294967296

/-- The largest handle, offset and array length, 2^32-1 (00_scope.md R9, 20_memory.md R53). -/
def wordMax : Nat := 4294967295

end Sys2Proof
end

