-- ==== Sys2Proof/Syntax.lean ====
section
/-!
DEFINITION. The instruction set: one constructor per row of spec/opcode_table.json (30_encoding.md R96,
R97). Fields an instruction does not use are ignored by the decoder (R95) and do not occur here.
-/

namespace Sys2Proof

/-- The decoded instructions, with the register fields A, B, C of the standard format (30_encoding.md R90)
or A' and the immediate of the immediate format (R91). -/
inductive Instr where
  /-- 0, ConditionalMove (R150). -/
  | cmov (a b c : Reg)
  /-- 1, ArrayIndex (R151). -/
  | index (a b c : Reg)
  /-- 2, ArrayAmendment (R152). -/
  | amend (a b c : Reg)
  /-- 3, Addition (R161). -/
  | add (a b c : Reg)
  /-- 4, Multiplication (R162). -/
  | mul (a b c : Reg)
  /-- 5, Division (R163). -/
  | div (a b c : Reg)
  /-- 6, NotAnd (R164). -/
  | nand (a b c : Reg)
  /-- 7, Halt (R180). -/
  | halt
  /-- 8, Allocation (R190). -/
  | alloc (b c : Reg)
  /-- 9, Abandonment (R191). -/
  | abandon (c : Reg)
  /-- 10, Output (R200). -/
  | out (c : Reg)
  /-- 11, Input (R203); `in` is a word of Lean. -/
  | inp (c : Reg)
  /-- 12, LoadProgram (R182). -/
  | loadprog (b c : Reg)
  /-- 13, Orthography (R215): the immediate as the decoder passes it, zero-extended to a word (R98). -/
  | orth (a : Reg) (imm : Word)
  /-- 14, never assigned a meaning (R97, R221). -/
  | illegal14
  /-- 15, never assigned a meaning (R97, R221). -/
  | illegal15
  deriving DecidableEq, Repr

/-- The opcode of an instruction (30_encoding.md R96; the numbers 0 to 12 are the spec's D1, log 8). -/
def Instr.opcode : Instr → Nat
  | .cmov _ _ _ => 0
  | .index _ _ _ => 1
  | .amend _ _ _ => 2
  | .add _ _ _ => 3
  | .mul _ _ _ => 4
  | .div _ _ _ => 5
  | .nand _ _ _ => 6
  | .halt => 7
  | .alloc _ _ => 8
  | .abandon _ => 9
  | .out _ => 10
  | .inp _ => 11
  | .loadprog _ _ => 12
  | .orth _ _ => 13
  | .illegal14 => 14
  | .illegal15 => 15

/-- The registers an instruction reads (the "reads" column of 10_state.md R22). -/
def Instr.sources : Instr → List Reg
  | .cmov _ b c => [b, c]
  | .index _ b c => [b, c]
  | .amend a b c => [a, b, c]
  | .add _ b c => [b, c]
  | .mul _ b c => [b, c]
  | .div _ b c => [b, c]
  | .nand _ b c => [b, c]
  | .halt => []
  | .alloc _ c => [c]
  | .abandon c => [c]
  | .out c => [c]
  | .inp _ => []
  | .loadprog b c => [b, c]
  | .orth _ _ => []
  | .illegal14 => []
  | .illegal15 => []

/-- The register an instruction's own step may write (the "writes" column of 10_state.md R22; IN writes
x[C] only at its resumption, so its step writes none). -/
def Instr.dest : Instr → Option Reg
  | .cmov a _ _ => some a
  | .index a _ _ => some a
  | .amend _ _ _ => none
  | .add a _ _ => some a
  | .mul a _ _ => some a
  | .div a _ _ => some a
  | .nand a _ _ => some a
  | .halt => none
  | .alloc b _ => some b
  | .abandon _ => none
  | .out _ => none
  | .inp _ => none
  | .loadprog _ _ => none
  | .orth a _ => some a
  | .illegal14 => none
  | .illegal15 => none

end Sys2Proof
end

