-- ==== Sys2Proof/WellFormed.lean ====
section
/-!
DEFINITION. Which instructions have an encoding. Register fields are well formed by their type; the one
check is the range of ORTH's immediate (30_encoding.md R94, R100).
-/

namespace Sys2Proof

/-- The largest immediate, 0x01FFFFFF (30_encoding.md R94). -/
def immMax : Nat := 33554431

/-- An instruction whose every operand fits its field. -/
def Instr.wellFormed : Instr → Bool
  | .cmov _ _ _ => true
  | .index _ _ _ => true
  | .amend _ _ _ => true
  | .add _ _ _ => true
  | .mul _ _ _ => true
  | .div _ _ _ => true
  | .nand _ _ _ => true
  | .halt => true
  | .alloc _ _ => true
  | .abandon _ => true
  | .out _ => true
  | .inp _ => true
  | .loadprog _ _ => true
  | .orth _ imm => decide (imm.toNat ≤ immMax)
  | .illegal14 => true
  | .illegal15 => true

end Sys2Proof
end

