-- ==== Sys2Proof/Decode.lean ====
section
/-!
DEFINITION. The decoder (30_encoding.md R98), total on every 32-bit word and on any bytes, and after it
the encoder (R99). Byte order exists only at the edge: four bytes are one big-endian word (20_memory.md
R63).
-/

namespace Sys2Proof

/-! ### Fields -/

/-- The opcode field `w[31:28]` (30_encoding.md R90, R91). -/
def opcodeField (w : Word) : Nat := (w.extractLsb' 28 4).toNat

/-- The 3-bit register field of `w` whose lowest bit is `lo` (30_encoding.md R93). -/
def regField (w : Word) (lo : Nat) : Reg := ⟨(w.extractLsb' lo 3).toNat, (w.extractLsb' lo 3).isLt⟩

/-- `A = w[8:6]`. -/
def fieldA (w : Word) : Reg := regField w 6

/-- `B = w[5:3]`. -/
def fieldB (w : Word) : Reg := regField w 3

/-- `C = w[2:0]`. -/
def fieldC (w : Word) : Reg := regField w 0

/-- `A' = w[27:25]`, the register field of the immediate format (30_encoding.md R91). -/
def fieldA' (w : Word) : Reg := regField w 25

/-- `zext_32(w[24:0])` (30_encoding.md R94). -/
def immField (w : Word) : Word := (w.extractLsb' 0 25).zeroExtend 32

/-! ### Decoder -/

/-- The instruction a word stands for: pure, total, by opcode alone (30_encoding.md R96, R98). Bits the
opcode does not use are ignored (R95; the spec's own D2: UNVERIFIED, log 17). -/
def decode (w : Word) : Instr :=
  match opcodeField w with
  | 0 => .cmov (fieldA w) (fieldB w) (fieldC w)
  | 1 => .index (fieldA w) (fieldB w) (fieldC w)
  | 2 => .amend (fieldA w) (fieldB w) (fieldC w)
  | 3 => .add (fieldA w) (fieldB w) (fieldC w)
  | 4 => .mul (fieldA w) (fieldB w) (fieldC w)
  | 5 => .div (fieldA w) (fieldB w) (fieldC w)
  | 6 => .nand (fieldA w) (fieldB w) (fieldC w)
  | 7 => .halt
  | 8 => .alloc (fieldB w) (fieldC w)
  | 9 => .abandon (fieldC w)
  | 10 => .out (fieldC w)
  | 11 => .inp (fieldC w)
  | 12 => .loadprog (fieldB w) (fieldC w)
  | 13 => .orth (fieldA' w) (immField w)
  | 14 => .illegal14
  | _ => .illegal15

/-- The bits of a word that an opcode uses (30_encoding.md R90, R91, R96): the opcode and the fields of
R96's "fields used" column. The other bits are ignored (R95). -/
def usedMask (op : Nat) : Word :=
  match op with
  | 7 => 0xF0000000#32
  | 8 => 0xF000003F#32
  | 9 => 0xF0000007#32
  | 10 => 0xF0000007#32
  | 11 => 0xF0000007#32
  | 12 => 0xF000003F#32
  | 13 => 0xFFFFFFFF#32
  | 14 => 0xF0000000#32
  | 15 => 0xF0000000#32
  | _ => 0xF00001FF#32

/-! ### Bytes -/

/-- Image bytes b0 b1 b2 b3 as one word, `{b0, b1, b2, b3}`: big-endian (20_memory.md R63). -/
def wordOfBytes (b0 b1 b2 b3 : Byte) : Word :=
  BitVec.ofNat 32 (b0.toNat * 2 ^ 24 + b1.toNat * 2 ^ 16 + b2.toNat * 2 ^ 8 + b3.toNat)

/-- The four bytes of a word, most significant first (20_memory.md R63). -/
def bytesOfWord (w : Word) : List Byte :=
  [w.extractLsb' 24 8, w.extractLsb' 16 8, w.extractLsb' 8 8, w.extractLsb' 0 8]

/-- Why bytes are not an instruction. -/
inductive DecodeError where
  /-- Raised by `decodeBytes` on fewer than four bytes: an instruction is exactly one word
  (30_encoding.md R92). Safe: the machine itself never decodes bytes. -/
  | truncated
  deriving DecidableEq, Repr

/-- The decoder on "a 4-byte big-endian instruction word" (20_memory.md R63): the instruction of the first
four bytes, and the rest. -/
def decodeBytes : List Byte → Except DecodeError (Instr × List Byte)
  | b0 :: b1 :: b2 :: b3 :: rest => .ok (decode (wordOfBytes b0 b1 b2 b3), rest)
  | _ => .error .truncated

/-- The instruction read from an instruction of `nbits` bits whose bits are `w`, bit 0 the least significant
of the first (and only) word; every bit above `nbits` is 0. The machine stores whole words, so a word is
laid out as itself. -/
def decodeTableWord (nbits w : Nat) : Option Instr :=
  some (decode (BitVec.ofNat 32 (w % 2 ^ nbits)))

/-! ### Encoder -/

/-- A standard-format word `op * 2^28 + A * 2^6 + B * 2^3 + C` (30_encoding.md R99). -/
def encodeStd (op a b c : Nat) : Word :=
  BitVec.ofNat 32 (op * 2 ^ 28 + a * 2 ^ 6 + b * 2 ^ 3 + c)

/-- The word of a well-formed instruction, unused fields and bits written as 0 (30_encoding.md R99). -/
def encode : Instr → Word
  | .cmov a b c => encodeStd 0 a b c
  | .index a b c => encodeStd 1 a b c
  | .amend a b c => encodeStd 2 a b c
  | .add a b c => encodeStd 3 a b c
  | .mul a b c => encodeStd 4 a b c
  | .div a b c => encodeStd 5 a b c
  | .nand a b c => encodeStd 6 a b c
  | .halt => encodeStd 7 0 0 0
  | .alloc b c => encodeStd 8 0 b c
  | .abandon c => encodeStd 9 0 0 c
  | .out c => encodeStd 10 0 0 c
  | .inp c => encodeStd 11 0 0 c
  | .loadprog b c => encodeStd 12 0 b c
  | .orth a imm => BitVec.ofNat 32 (13 * 2 ^ 28 + a * 2 ^ 25 + imm.toNat)
  | .illegal14 => encodeStd 14 0 0 0
  | .illegal15 => encodeStd 15 0 0 0

/-- The bytes of a well-formed instruction in an image. -/
def encodeBytes (i : Instr) : List Byte := bytesOfWord (encode i)

end Sys2Proof
end

