-- ==== Sys2Proof/Config.lean ====
section
/-!
DEFINITION. What an implementation fixes: the open capacity parameters of 00_scope.md R10. They are
arguments of the model (10_state.md R37), carried by the state and changed by no transition (assumption
log 3), so a statement about every state holds for every value of them. The hardware leaves no value
undefined, so there is no free value here.
-/

namespace Sys2Proof

/-- The capacity parameters of 00_scope.md R10, each a named argument of the model. -/
structure Config where
  /-- `HEAP_CAPACITY_WORDS`: the array words the heap can hold at once, array 0 included; `none` is
  unbounded, D11's default. -/
  heapCapacityWords : Option Nat
  /-- `MAX_LIVE_HANDLES`: how many non-zero handles may be live at once, at most 2^32-1
  (that handle 0 is not counted: DEDUCED, log 4). -/
  maxLiveHandles : Nat
  /-- `OUTQ_CAPACITY`: the bytes the pending-output queue can hold; `none` is unbounded, D14's default and
  how the spec takes it (10_state.md R32; log 7). OUT checks no value of it and never blocks (45_io.md R200,
  R201; a finite value: DESIGN CHOICE, log 21). -/
  outqCapacity : Option Nat := none
  deriving DecidableEq, Repr

/-- DESIGN CHOICE (log 3): the parameters of the machine after reset, D11's default of an unbounded heap,
every non-zero handle usable, and D14's default of an unbounded output queue. -/
def Config.unbounded : Config :=
  { heapCapacityWords := none, maxLiveHandles := wordMax, outqCapacity := none }

end Sys2Proof
end

