-- ==== Sys2Proof/Machine/Memory.lean ====
section
/-!
DEFINITION. The heap's storage (20_memory.md R50 to R53): word arrays by handle. Both levels are lists of
key and value pairs in one canonical form, keys strictly rising and no word equal to what an unlisted word
reads as, so that equal heaps are equal data (log 5). `Memory.array?` is the spec's own view of the heap, a
map from a handle to a list of words or nothing (10_state.md R20, R30).
-/

namespace Sys2Proof.Machine

/-! ### Lists of pairs by key -/

/-- The value listed under a key. -/
def lookupKey {α : Type} : List (Nat × α) → Nat → Option α
  | [], _ => none
  | (k, v) :: rest, q => if k = q then some v else lookupKey rest q

/-- List a value under a key, in the key's place, instead of the value it had. -/
def insertKey {α : Type} : List (Nat × α) → Nat → α → List (Nat × α)
  | [], q, v => [(q, v)]
  | (k, u) :: rest, q, v =>
    if q < k then (q, v) :: (k, u) :: rest
    else if q = k then (q, v) :: rest
    else (k, u) :: insertKey rest q v

/-- Take a key out. -/
def eraseKey {α : Type} : List (Nat × α) → Nat → List (Nat × α)
  | [], _ => []
  | (k, v) :: rest, q => if k = q then eraseKey rest q else (k, v) :: eraseKey rest q

/-- Keys strictly rising. -/
abbrev KeysRising {α : Type} (l : List (Nat × α)) : Prop := l.Pairwise fun p q => p.1 < q.1

/-! ### One array -/

/-- An array of words (20_memory.md R53): its length, and the words that are not `unlistedWord`, by
offset. -/
structure WordArray where
  /-- The number of words, fixed when the array is created (R53). -/
  length : Nat
  /-- The non-zero words by offset, offsets rising. -/
  cells : List (Nat × Word)
  deriving DecidableEq, Repr

/-- What a word of an array reads as when nothing has written it: a new array is zero-filled
(20_memory.md R54, R69). -/
def unlistedWord : Word := 0#32

/-- A new array of `n` zero words (20_memory.md R54). -/
def WordArray.zeros (n : Nat) : WordArray := { length := n, cells := [] }

/-- The word at an offset, not looking at the length. -/
def WordArray.cell (a : WordArray) (o : Nat) : Word := (lookupKey a.cells o).getD unlistedWord

/-- The word at an offset, if it is below the length (20_memory.md R57). -/
def WordArray.word? (a : WordArray) (o : Nat) : Option Word :=
  if o < a.length then some (a.cell o) else none

/-- The array with one word replaced; its length stays (20_memory.md R58). -/
def WordArray.write (a : WordArray) (o : Nat) (v : Word) : WordArray :=
  { a with cells := if v = unlistedWord then eraseKey a.cells o else insertKey a.cells o v }

/-- The array as the sequence of its words. -/
def WordArray.words (a : WordArray) : List Word := (List.range a.length).map a.cell

/-- The non-zero words of a list, by offset from `o`. -/
def cellsFrom : Nat → List Word → List (Nat × Word)
  | _, [] => []
  | o, v :: rest => if v = unlistedWord then cellsFrom (o + 1) rest else (o, v) :: cellsFrom (o + 1) rest

/-- The array that holds a given sequence of words. -/
def WordArray.ofWords (ws : List Word) : WordArray := { length := ws.length, cells := cellsFrom 0 ws }

/-- The canonical form of an array: offsets rising and below the length, no listed word zero, at most
2^32-1 words (20_memory.md R53). -/
abbrev WordArray.wf (a : WordArray) : Prop :=
  KeysRising a.cells ∧ (∀ p ∈ a.cells, p.1 < a.length ∧ p.2 ≠ unlistedWord) ∧ a.length ≤ wordMax

/-! ### The heap -/

/-- The live handles with their arrays (10_state.md R30). -/
abbrev Memory := List (Nat × WordArray)

/-- The canonical form of the heap: handles rising, each a 32-bit value, every array in its own form. -/
abbrev Memory.wf (m : Memory) : Prop :=
  KeysRising m ∧ ∀ p ∈ m, p.1 ≤ wordMax ∧ p.2.wf

/-- A handle is live when it refers to an array (10_state.md R30). -/
def Memory.live (m : Memory) (h : Nat) : Bool := (lookupKey m h).isSome

/-- The heap as the spec gives it: the words of a live handle's array, nothing for a free handle
(10_state.md R20, R30). -/
def Memory.array? (m : Memory) (h : Nat) : Option (List Word) := (lookupKey m h).map WordArray.words

/-- The length of a live handle's array. -/
def Memory.length? (m : Memory) (h : Nat) : Option Nat := (lookupKey m h).map WordArray.length

/-- The model's read of one word: of a live handle, at an offset below the length (20_memory.md R57). -/
def Memory.word? (m : Memory) (h o : Nat) : Option Word := (lookupKey m h).bind (·.word? o)

/-- The length of the program array; 0 where handle 0 is not live, which no run reaches (log 15). -/
def Memory.programLength (m : Memory) : Nat := (m.length? 0).getD 0

/-- The sum of the lengths of all live arrays, array 0 included (20_memory.md R54). -/
def Memory.usedWords : Memory → Nat
  | [] => 0
  | (_, a) :: rest => a.length + Memory.usedWords rest

/-- How many non-zero handles are live. -/
def Memory.liveHandles : Memory → Nat
  | [] => 0
  | (h, _) :: rest => (if h = 0 then 0 else 1) + Memory.liveHandles rest

/-- The first number from `k` on that is no key of a list with rising keys. -/
def firstGap {α : Type} : Nat → List (Nat × α) → Nat
  | k, [] => k
  | k, (h, _) :: rest =>
    if h < k then firstGap k rest else if h = k then firstGap (k + 1) rest else k

/-- The smallest free non-zero handle (20_memory.md R56, 10_state.md R31), 2^32 or more where none is
free. -/
def Memory.firstFree (m : Memory) : Nat := firstGap 1 m

end Sys2Proof.Machine
end

