-- ==== Sys2Proof/Machine/State.lean ====
section
/-!
DEFINITION. The machine's state (10_state.md R20), the reasons a machine fails, the reasons a host call is
refused, and the state after reset (R36).
-/

namespace Sys2Proof.Machine

/-- The failure reasons, a closed set (10_state.md R28; 60_exceptions.md R221 to R226). -/
inductive FailReason where
  /-- The decoder: opcode 14 or 15 (R221). -/
  | illegalOpcode
  /-- Fetch, INDEX, AMEND, LOADPROG: a handle that is not live or an offset past the end (R222). -/
  | outOfBoundsAccess
  /-- DIV by 0 (R223). -/
  | divisionByZero
  /-- ABANDON of handle 0 or of a handle that is not live (R224). -/
  | invalidAbandon
  /-- OUT of a value above 255 (R225). -/
  | outputOutOfRange
  /-- ALLOC or LOADPROG beyond the capacity or the handle space (R226). -/
  | resourceExhausted
  deriving DecidableEq, Repr

/-- The state machine register (10_state.md R27). -/
inductive RunState where
  /-- "can execute". -/
  | idle
  /-- "blocked needing one input byte"; `c` is the pending-input register (R33). -/
  | waiting (c : Reg)
  /-- "terminal, normal". -/
  | halted
  /-- "terminal, error". -/
  | failed (r : FailReason)
  deriving DecidableEq, Repr

/-- What the host supplies to a waiting machine: one byte or end-of-input (45_io.md R205). -/
inductive HostInput where
  | byte (b : Byte)
  | endOfInput
  deriving DecidableEq, Repr

/-- The machine stops with no fault: it has no constructor. Every failure the spec names is the terminal
state `RunState.failed` (60_exceptions.md R220), a next state of the model. Safe: nothing raises it. -/
inductive Fault where
  deriving DecidableEq, Repr

/-- Calls and instructions with no meaning. -/
inductive Refusal where
  /-- Raised by `exec` alone, for an instruction that has no meaning in the model yet; no arm raises it.
  Safe: the model stops where the hardware goes on. -/
  | notModelled (mnemonic : String)
  /-- Raised by `supplyInput` outside Waiting: "refused ... a host error" (40_engine_cycle.md R133).
  Safe: the spec's own refusal. -/
  | inputNotAwaited
  /-- Raised by `runBounded` with budget 0: a budget is at least 1 (40_engine_cycle.md R131; log 11).
  Safe: no meaning is given to a call the spec does not define. -/
  | zeroStepBudget
  /-- Raised by `create`: an image whose byte length is no multiple of 4 (70_reset_and_hazards.md R253).
  Safe: the spec's own refusal. -/
  | imageNotWholeWords
  /-- Raised by `create`: an image of more than 2^32-1 words (R253). Safe: the spec's own refusal. -/
  | imageTooLong
  /-- Raised by `create`: an image of more words than `HEAP_CAPACITY_WORDS` (R253). Safe: the spec's own
  refusal. -/
  | imageExceedsCapacity
  deriving DecidableEq, Repr

/-- The complete architectural state (10_state.md R20), and two fields of the model's own at the end. -/
structure State where
  /-- The register file x[0] .. x[7] (R21). -/
  x : Vector Word 8
  /-- The execution finger, a word offset into array 0 (R24). -/
  pc : Word
  /-- The handle table and array storage (R30). -/
  heap : Memory
  /-- The pending output bytes, oldest first (R32). -/
  outq : List Byte
  /-- The state machine (R27). -/
  state : RunState
  /-- The model's own: the inputs the host is going to supply, oldest first (DESIGN CHOICE, log 2). -/
  hostIn : List HostInput
  /-- The model's own: the capacity parameters, changed by no transition (DESIGN CHOICE, log 3). -/
  config : Config
  deriving DecidableEq, Repr

/-- The machine right after reset, with nothing loaded: `create` of the empty image (10_state.md R36,
70_reset_and_hazards.md R250, R253; log 6). -/
def State.reset : State where
  x := Vector.replicate 8 0#32
  pc := 0#32
  heap := [(0, { length := 0, cells := [] })]
  outq := []
  state := .idle
  hostIn := []
  config := Config.unbounded

end Sys2Proof.Machine
end

