-- ==== Sys2Proof/Machine/Ops.lean ====
section
/-!
DEFINITION. The named operations over registers, finger, heap and state machine (00_scope.md R13,
40_engine_cycle.md R120): everything an instruction can do, and taking an exception.
-/

namespace Sys2Proof.Machine

/-! ### Register file -/

/-- `x[r]` (00_scope.md R13): every register is an ordinary one (10_state.md R21). -/
def State.reg (s : State) (r : Reg) : Word := s.x[r]

/-- `x[r] <- v` (00_scope.md R13). -/
def State.setReg (s : State) (r : Reg) (v : Word) : State := { s with x := s.x.set r v }

/-! ### Finger -/

/-- `pc <- target`. -/
def State.setPc (s : State) (target : Word) : State := { s with pc := target }

/-- `pc <- pc + 1` (40_engine_cycle.md R125). It never wraps after a fetch within array 0 (10_state.md
R26); elsewhere, where no run comes, it does (log 10). -/
def State.advance (s : State) : State := s.setPc (s.pc + 1#32)

/-! ### State machine -/

/-- `state <- v`. -/
def State.setState (s : State) (v : RunState) : State := { s with state := v }

/-- TAKING AN EXCEPTION, `raise Fail(reason)`: the machine as it was before the step, in the terminal
state `Failed(reason)`; nothing else changes (00_scope.md R13, 60_exceptions.md R230, 40_engine_cycle.md
R127). There is no return from it (R231). -/
def State.fail (s : State) (r : FailReason) : State := s.setState (.failed r)

/-- A step that needs the result of an operation that may fail: it completes with all its changes, or
takes the exception from the state before it (40_engine_cycle.md R127). -/
def State.attempt {α : Type} (s : State) (res : Except FailReason α) (k : α → State) :
    Host.Outcome State Fault Refusal :=
  match res with
  | .ok v => .next (k v)
  | .error r => .next (s.fail r)

/-! ### Heap controller -/

/-- The state with another heap. -/
def State.setHeap (s : State) (m : Memory) : State := { s with heap := m }

/-- `MemRead(h, o)` (20_memory.md R57). -/
def State.memRead (s : State) (h o : Word) : Except FailReason Word :=
  match s.heap.word? h.toNat o.toNat with
  | some v => .ok v
  | none => .error .outOfBoundsAccess

/-- `MemWrite(h, o, v)` (20_memory.md R58). -/
def State.memWrite (s : State) (h o v : Word) : Except FailReason State :=
  match lookupKey s.heap h.toNat with
  | none => .error .outOfBoundsAccess
  | some a =>
    if o.toNat < a.length then .ok (s.setHeap (insertKey s.heap h.toNat (a.write o.toNat v)))
    else .error .outOfBoundsAccess

/-- Whether an amount is within a capacity, `none` being unbounded (00_scope.md R10). -/
def withinLimit (limit : Option Nat) (n : Nat) : Bool :=
  match limit with
  | none => true
  | some cap => decide (n ≤ cap)

/-- Whether so many words in all fit in `HEAP_CAPACITY_WORDS` (00_scope.md R10). -/
def fitsCapacity (c : Config) (words : Nat) : Bool := withinLimit c.heapCapacityWords words

/-- Whether one more handle may become live: a non-zero handle is free (20_memory.md R54) and
`MAX_LIVE_HANDLES` are not live already (D11; what is counted: DEDUCED, log 4). -/
def handleAvailable (c : Config) (m : Memory) : Bool :=
  decide (m.firstFree ≤ wordMax) && decide (m.liveHandles < c.maxLiveHandles)

/-- `Allocate(n)` (20_memory.md R54, R56): the handle and the state with the new zero-filled array. -/
def State.allocate (s : State) (n : Word) : Except FailReason (Word × State) :=
  if fitsCapacity s.config (n.toNat + s.heap.usedWords) && handleAvailable s.config s.heap then
    .ok (BitVec.ofNat 32 s.heap.firstFree,
      s.setHeap (insertKey s.heap s.heap.firstFree (WordArray.zeros n.toNat)))
  else .error .resourceExhausted

/-- `Free(h)` (20_memory.md R55). -/
def State.free (s : State) (h : Word) : Except FailReason State :=
  if h = 0#32 then .error .invalidAbandon
  else if s.heap.live h.toNat then .ok (s.setHeap (eraseKey s.heap h.toNat))
  else .error .invalidAbandon

/-- `ReplaceProgram(h)`, called only with h != 0 (20_memory.md R59): liveness before capacity (60_exceptions.md
R228). The capacity test is R59's, its subtraction moved to the other side. -/
def State.replaceProgram (s : State) (h : Word) : Except FailReason State :=
  match lookupKey s.heap h.toNat with
  | none => .error .outOfBoundsAccess
  | some a =>
    match s.config.heapCapacityWords with
    | none => .ok (s.setHeap (insertKey s.heap 0 a))
    | some cap =>
      if cap + s.heap.programLength < a.length + s.heap.usedWords then .error .resourceExhausted
      else .ok (s.setHeap (insertKey s.heap 0 a))

/-! ### Program memory interface -/

/-- `Fetch(pc)`: MemRead of array 0 at the finger, its current contents at every step (20_memory.md R62,
R72). -/
def State.fetch (s : State) : Except FailReason Word := s.memRead 0#32 s.pc

/-! ### Output port -/

/-- Whether so many pending bytes fit in `OUTQ_CAPACITY` (00_scope.md R10): what a run on a finite queue is
held against; `OutQ.append` does not ask it (log 21). -/
def fitsOutput (c : Config) (bytes : Nat) : Bool := withinLimit c.outqCapacity bytes

/-- `OutQ.append(b)`: it never blocks and drops nothing (00_scope.md R13, 45_io.md R200, R201, whatever
`OUTQ_CAPACITY` is: log 7, log 21). -/
def State.appendOut (s : State) (b : Byte) : State := { s with outq := s.outq ++ [b] }

end Sys2Proof.Machine
end

