-- ==== Sys2Proof/Machine/Operands.lean ====
section
/-!
DEFINITION. The operand forms (30_encoding.md R93, R94): a register named by a field, and the immediate of
ORTH. There is no other form (no memory operand, no scaled index).
-/

namespace Sys2Proof.Machine

/-- A register operand: the value its register holds before the instruction writes anything
(30_encoding.md R93, 40_engine_cycle.md R126). -/
abbrev srcOperand (s : State) (r : Reg) : Word := s.reg r

/-- The immediate operand: the decoder has zero-extended it already, and the fields are passed unchanged
(30_encoding.md R94, R98; 40_engine_cycle.md R124). -/
abbrev immOperand (imm : Word) : Word := imm

/-- Write a result to the destination register and advance the finger: the end of every instruction that
writes a register (40_engine_cycle.md R125). -/
def State.writeBack (s : State) (r : Reg) (v : Word) : State := (s.setReg r v).advance

end Sys2Proof.Machine
end

