-- ==== Sys2Proof/Machine/Alu.lean ====
section
/-!
DEFINITION. The ALU (42_alu.md R160: unsigned words, no flags, no high half of a product) and its four
instructions (R161 to R164). Results are computed exactly on integers and then reduced.
-/

namespace Sys2Proof.Machine

/-- `(b + c) mod 2^32` (42_alu.md R161). -/
def aluAdd (b c : Word) : Word := BitVec.ofNat 32 (b.toNat + c.toNat)

/-- `(b * c) mod 2^32` (42_alu.md R162). -/
def aluMul (b c : Word) : Word := BitVec.ofNat 32 (b.toNat * c.toNat)

/-- Unsigned floor division; division by 0 fails whatever the dividend (42_alu.md R163). -/
def aluDiv (b c : Word) : Except FailReason Word :=
  if c = 0#32 then .error .divisionByZero else .ok (BitVec.ofNat 32 (b.toNat / c.toNat))

/-- `~(b & c)`, bitwise over all 32 bits (42_alu.md R164). -/
def aluNand (b c : Word) : Word := ~~~(b &&& c)

/-- ADD (42_alu.md R161). -/
def execAdd (a b c : Reg) (s : State) : Host.Outcome State Fault Refusal :=
  .next (s.writeBack a (aluAdd (srcOperand s b) (srcOperand s c)))

/-- MUL (42_alu.md R162). -/
def execMul (a b c : Reg) (s : State) : Host.Outcome State Fault Refusal :=
  .next (s.writeBack a (aluMul (srcOperand s b) (srcOperand s c)))

/-- DIV (42_alu.md R163). -/
def execDiv (a b c : Reg) (s : State) : Host.Outcome State Fault Refusal :=
  s.attempt (aluDiv (srcOperand s b) (srcOperand s c)) fun q => s.writeBack a q

/-- NAND (42_alu.md R164). -/
def execNand (a b c : Reg) (s : State) : Host.Outcome State Fault Refusal :=
  .next (s.writeBack a (aluNand (srcOperand s b) (srcOperand s c)))

end Sys2Proof.Machine
end

