-- ==== Sys2Proof/Machine/Control.lean ====
section
/-!
DEFINITION. Control transfer (43_control.md R180 to R184).
-/

namespace Sys2Proof.Machine

/-- HALT: the finger is not advanced (43_control.md R180). -/
def execHalt (s : State) : Host.Outcome State Fault Refusal := .next (s.setState .halted)

/-- LOADPROG: handle x[B] (0 keeps array 0), new finger x[C], which is not checked (43_control.md R182,
R183). -/
def execLoadprog (b c : Reg) (s : State) : Host.Outcome State Fault Refusal :=
  if srcOperand s b = 0#32 then .next (s.setPc (srcOperand s c))
  else s.attempt (s.replaceProgram (srcOperand s b)) fun t => t.setPc (srcOperand s c)

end Sys2Proof.Machine
end

