-- ==== Sys2Proof/Machine/HeapOps.lean ====
section
/-!
DEFINITION. Heap allocation (44_heap_ops.md R190, R191).
-/

namespace Sys2Proof.Machine

/-- ALLOC: size x[C], the handle to x[B] (44_heap_ops.md R190). -/
def execAlloc (b c : Reg) (s : State) : Host.Outcome State Fault Refusal :=
  s.attempt (s.allocate (srcOperand s c)) fun r => r.2.writeBack b r.1

/-- ABANDON: handle x[C] (44_heap_ops.md R191). -/
def execAbandon (c : Reg) (s : State) : Host.Outcome State Fault Refusal :=
  s.attempt (s.free (srcOperand s c)) fun t => t.advance

end Sys2Proof.Machine
end

