-- ==== Sys2Proof/Machine/Illegal.lean ====
section
/-!
DEFINITION. The illegal words (30_encoding.md R97, 40_engine_cycle.md R123, 60_exceptions.md R221): their
effect is to take the exception IllegalOpcode.
-/

namespace Sys2Proof.Machine

/-- Opcode 14 (60_exceptions.md R221). -/
def execIllegal14 (s : State) : Host.Outcome State Fault Refusal := .next (s.fail .illegalOpcode)

/-- Opcode 15 (60_exceptions.md R221). -/
def execIllegal15 (s : State) : Host.Outcome State Fault Refusal := .next (s.fail .illegalOpcode)

end Sys2Proof.Machine
end

