-- ==== Sys2Proof/Machine/Immediate.lean ====
section
/-!
DEFINITION. Immediate load (46_immediate.md R215).
-/

namespace Sys2Proof.Machine

/-- ORTH (46_immediate.md R215). -/
def execOrth (a : Reg) (imm : Word) (s : State) : Host.Outcome State Fault Refusal :=
  .next (s.writeBack a (immOperand imm))

end Sys2Proof.Machine
end

