-- ==== Sys2Proof/Machine/InOut.lean ====
section
/-!
DEFINITION. Output, input and the resumption of an input (45_io.md R200 to R206).
-/

namespace Sys2Proof.Machine

/-- The strict range check on the full value, never a truncation (45_io.md R200, R202). -/
def outputByte (v : Word) : Except FailReason Byte :=
  if v.toNat > 255 then .error .outputOutOfRange else .ok (BitVec.ofNat 8 v.toNat)

/-- OUT (45_io.md R200). -/
def execOut (c : Reg) (s : State) : Host.Outcome State Fault Refusal :=
  s.attempt (outputByte (srcOperand s c)) fun b => (s.appendOut b).advance

/-- IN: the step only enters Waiting(C); the resumption writes x[C] and advances the finger (45_io.md R203,
R205). -/
def execIn (c : Reg) (s : State) : Host.Outcome State Fault Refusal :=
  .next (s.setState (.waiting c))

/-- The value an input gives: a byte zero-extended, or all ones at end-of-input (45_io.md R205). -/
def inputValue : HostInput → Word
  | .byte b => b.zeroExtend 32
  | .endOfInput => 0xFFFFFFFF#32

/-- `Resume(input)` from Waiting(c) (45_io.md R205). -/
def State.resume (s : State) (c : Reg) (i : HostInput) : State :=
  (s.writeBack c (inputValue i)).setState .idle

end Sys2Proof.Machine
end

