-- ==== Sys2Proof/Machine/Flags.lean ====
section
/-!
DEFINITION. The hardware has no flags and no condition codes (10_state.md R34): no instruction sets one
and State holds none. The only condition an instruction tests is a register against 0.
-/

namespace Sys2Proof.Machine

/-- CMOV's condition `x[C] != 0` (10_state.md R34, 41_move_array.md R150). -/
def nonZero (v : Word) : Bool := decide (v ≠ 0#32)

end Sys2Proof.Machine
end

