-- ==== Sys2Proof/Machine/MoveArray.lean ====
section
/-!
DEFINITION. Conditional move and array access (41_move_array.md R150 to R152).
-/

namespace Sys2Proof.Machine

/-- CMOV (41_move_array.md R150). -/
def execCmov (a b c : Reg) (s : State) : Host.Outcome State Fault Refusal :=
  if nonZero (srcOperand s c) then .next (s.writeBack a (srcOperand s b))
  else .next s.advance

/-- INDEX: handle x[B], offset x[C] (41_move_array.md R151). -/
def execIndex (a b c : Reg) (s : State) : Host.Outcome State Fault Refusal :=
  s.attempt (s.memRead (srcOperand s b) (srcOperand s c)) fun v => s.writeBack a v

/-- AMEND: handle x[A], offset x[B], value x[C] (41_move_array.md R152). -/
def execAmend (a b c : Reg) (s : State) : Host.Outcome State Fault Refusal :=
  s.attempt (s.memWrite (srcOperand s a) (srcOperand s b) (srcOperand s c)) fun t => t.advance

end Sys2Proof.Machine
end

