-- ==== Sys2Proof/Machine/Engine.lean ====
section
/-!
DEFINITION. The engine cycle (40_engine_cycle.md R121 to R123, R128): the step from Idle, and the other
transitions of the state machine (10_state.md R29).
-/

namespace Sys2Proof.Machine

/-- `Step()`, from Idle: "fetch the word at array 0 offset = finger; decode; dispatch" (40_engine_cycle.md
R121). A failed fetch fails the step before anything is decoded (R122). -/
def engineStep (s : State) : Host.Outcome State Fault Refusal :=
  match s.fetch with
  | .error r => .next (s.fail r)
  | .ok w => exec (decode w) s

/-- In Waiting(c): the host supplies the next of its inputs, if it has one (45_io.md R205); else the machine
stays as it is (R204; DESIGN CHOICE, log 1 and log 2). -/
def waitForHost (c : Reg) (s : State) : Host.Outcome State Fault Refusal :=
  match s.hostIn with
  | [] => .next s
  | i :: rest => .next (({ s with hostIn := rest } : State).resume c i)

/-- One transition (10_state.md R29). Halted and Failed are never left and nothing changes in them
(40_engine_cycle.md R128; DESIGN CHOICE, log 1). -/
def transition (s : State) : Host.Outcome State Fault Refusal :=
  match s.state with
  | .idle => engineStep s
  | .waiting c => waitForHost c s
  | .halted => .next s
  | .failed _ => .next s

/-- The state with a word placed at the finger in array 0, the array lengthened where the finger lies past
its end, and the machine able to execute: what a program load does for the next instruction (log 6). -/
def placeInstruction (s : State) (w : Word) : State :=
  let a := (lookupKey s.heap 0).getD (WordArray.zeros 0)
  let longer : WordArray := { a with length := max a.length (s.pc.toNat + 1) }
  (s.setHeap (insertKey s.heap 0 (longer.write s.pc.toNat w))).setState .idle

end Sys2Proof.Machine
end

