-- ==== Sys2Proof/Machine/Step.lean ====
section
/-!
DEFINITION. The one step function of the model, and the placing of an instruction where it fetches next.
-/

namespace Sys2Proof.Machine

/-- One transition of the machine: from Idle one whole instruction, atomically (00_scope.md R7). -/
def step (s : State) : Host.Outcome State Fault Refusal := transition s

/-- The instruction of `nbits` bits `w` stored where the next step fetches it: array 0 at the finger, in
Idle (log 6). -/
def State.withFetchWord (s : State) (nbits w : Nat) : State :=
  placeInstruction s (BitVec.ofNat 32 (w % 2 ^ nbits))

end Sys2Proof.Machine
end

