-- ==== Sys2Proof/Machine/HostPort.lean ====
section
/-!
DEFINITION. The host's operations on a machine (40_engine_cycle.md R129 to R134, R147; 70_reset_and_hazards.md
R250 to R253).
-/

namespace Sys2Proof.Machine

/-! ### create -/

/-- The words of an image: bytes 4k .. 4k+3 become word k (70_reset_and_hazards.md R252). -/
def imageWords : List Byte → List Word
  | b0 :: b1 :: b2 :: b3 :: rest => wordOfBytes b0 b1 b2 b3 :: imageWords rest
  | _ => []

/-- The machine right after its creation from given words (10_state.md R36). -/
def State.fresh (c : Config) (ws : List Word) : State :=
  { State.reset with heap := [(0, WordArray.ofWords ws)], config := c }

/-- `create(program_bytes)` (40_engine_cycle.md R129), with the refusals of 70_reset_and_hazards.md R253
(their order: log 16). -/
def create (c : Config) (image : List Byte) : Host.Outcome State Fault Refusal :=
  if image.length % 4 ≠ 0 then .refused .imageNotWholeWords
  else if image.length / 4 > wordMax then .refused .imageTooLong
  else if fitsCapacity c (image.length / 4) then .next (State.fresh c (imageWords image))
  else .refused .imageExceedsCapacity

/-! ### run -/

/-- Steps while the state is Idle, at most `k` of them (40_engine_cycle.md R130, R131). -/
def runSteps : Nat → State → Host.Outcome State Fault Refusal
  | 0, s => .next s
  | k + 1, s =>
    match s.state with
    | .idle =>
      match engineStep s with
      | .next t => runSteps k t
      | .fault r => .fault r
      | .refused r => .refused r
    | .waiting _ => .next s
    | .halted => .next s
    | .failed _ => .next s

/-- The end of a `run`: the pending output is handed over and emptied (40_engine_cycle.md R130). -/
def collect (s : State) : List Byte × State := (s.outq, { s with outq := [] })

/-- `run(machine, k)` for k >= 1 (40_engine_cycle.md R131; budget 0: log 11). -/
def runBounded (k : Nat) (s : State) : Host.Outcome (List Byte × State) Fault Refusal :=
  if k = 0 then .refused .zeroStepBudget
  else
    match runSteps k s with
    | .next t => .next (collect t)
    | .fault r => .fault r
    | .refused r => .refused r

/-- `run(machine)` returns `out` and leaves `t`: after some number of steps the state is no longer Idle
(40_engine_cycle.md R130). A relation, since a run of a program that never leaves Idle does not return
(log 11). -/
def RunEnds (s : State) (out : List Byte) (t : State) : Prop :=
  ∃ k u, runSteps k s = .next u ∧ u.state ≠ .idle ∧ collect u = (out, t)

/-! ### supply_input, state, clone -/

/-- `supply_input(machine, byte_or_eof)`: the resumption in Waiting, refused elsewhere
(40_engine_cycle.md R133). -/
def supplyInput (i : HostInput) (s : State) : Host.Outcome State Fault Refusal :=
  match s.state with
  | .waiting c => .next (s.resume c i)
  | .idle => .refused .inputNotAwaited
  | .halted => .refused .inputNotAwaited
  | .failed _ => .refused .inputNotAwaited

/-- What `state` answers: the name, and the reason in the Failed case (40_engine_cycle.md R132). -/
inductive StateName where
  | idle
  | waiting
  | halted
  | failed (r : FailReason)
  deriving DecidableEq, Repr

/-- `state(machine)`; legal in every state, changes nothing (40_engine_cycle.md R132). -/
def stateQuery (s : State) : StateName :=
  match s.state with
  | .idle => .idle
  | .waiting _ => .waiting
  | .halted => .halted
  | .failed r => .failed r

/-- `clone(machine)`: every field of 10_state.md R20 copied, `outq` included (40_engine_cycle.md R147); the
host has scheduled no input for the new machine yet (log 12). DESIGN CHOICE (log 20): it answers in every
state, Halted and Failed too, where the spec leaves it open (R147 has no precondition and D5 speaks of
cloned failed machines; R134, R136 and 43_control.md R181 name no clone there). -/
def clone (s : State) : State := { s with hostIn := [] }

end Sys2Proof.Machine
end

