-- ==== Sys2Proof/Safety.lean ====
section
/-!
DEFINITION. The terms statements use: what part of the state stays the same, the invariants of the machine,
and what counts as a safe run.
-/

namespace Sys2Proof.Machine

/-! ### Frames -/

/-- Every register but those listed keeps its value. -/
def SameRegsExcept (rs : List Reg) (s t : State) : Prop := ∀ r, r ∉ rs → t.reg r = s.reg r

/-- No handle becomes live or free, and every word of every array reads as before. -/
def SameMemory (s t : State) : Prop := ∀ h, t.heap.array? h = s.heap.array? h

/-- The same of every array but one. -/
def SameMemoryExcept (h₀ : Nat) (s t : State) : Prop :=
  ∀ h, h ≠ h₀ → t.heap.array? h = s.heap.array? h

/-- The pending output, the host's inputs and the parameters stay. -/
def SameHostSide (s t : State) : Prop :=
  t.outq = s.outq ∧ t.hostIn = s.hostIn ∧ t.config = s.config

/-! ### Invariants -/

/-- What every state of a run has: the heap in canonical form, array 0 live (20_memory.md R51), and the
parameter `MAX_LIVE_HANDLES` at most 2^32-1 (00_scope.md R10). -/
def State.wf (s : State) : Prop :=
  s.heap.wf ∧ s.heap.live 0 = true ∧ s.config.maxLiveHandles ≤ wordMax

/-- The heap holds no more words and no more non-zero handles than the parameters allow
(00_scope.md R10). -/
def State.withinCapacity (s : State) : Prop :=
  fitsCapacity s.config s.heap.usedWords = true ∧ s.heap.liveHandles ≤ s.config.maxLiveHandles

/-- The pending output is within `OUTQ_CAPACITY` (00_scope.md R10, 10_state.md R32): true of every state
where the queue is unbounded, and what a claim about an implementation with a finite queue assumes
(D14; log 21). -/
def State.withinOutputCapacity (s : State) : Prop := fitsOutput s.config s.outq.length = true

/-- In Waiting(c) the finger points at the IN instruction whose field C is c (10_state.md R33). -/
def State.waitingLatch (s : State) : Prop :=
  ∀ c, s.state = .waiting c → ∃ w, s.fetch = .ok w ∧ decode w = .inp c

/-! ### Causes of failure -/

/-- The offset is at or past the end of the array, or the handle is not live (20_memory.md R57). -/
def OutOfBounds (s : State) (h o : Word) : Prop :=
  ∀ ws, s.heap.array? h.toNat = some ws → ws.length ≤ o.toNat

/-- So many words in all are more than `HEAP_CAPACITY_WORDS` (00_scope.md R10). -/
def ExceedsCapacity (s : State) (words : Nat) : Prop :=
  ∃ cap, s.config.heapCapacityWords = some cap ∧ cap < words

/-- Some non-zero handle is free, and fewer than `MAX_LIVE_HANDLES` are live (20_memory.md R54, D11). -/
def HandleFree (s : State) : Prop :=
  (∃ h, 1 ≤ h ∧ h ≤ wordMax ∧ s.heap.array? h = none) ∧ s.heap.liveHandles < s.config.maxLiveHandles

/-- The rows of the cause table that a decoded instruction raises (60_exceptions.md R227). LOADPROG's
liveness comes before its capacity (R228). -/
inductive FailsWith : Instr → State → FailReason → Prop where
  | illegal14 (s : State) : FailsWith .illegal14 s .illegalOpcode
  | illegal15 (s : State) : FailsWith .illegal15 s .illegalOpcode
  | index {a b c : Reg} {s : State} (h : OutOfBounds s (s.reg b) (s.reg c)) :
      FailsWith (.index a b c) s .outOfBoundsAccess
  | amend {a b c : Reg} {s : State} (h : OutOfBounds s (s.reg a) (s.reg b)) :
      FailsWith (.amend a b c) s .outOfBoundsAccess
  | loadprogFree {b c : Reg} {s : State} (h0 : s.reg b ≠ 0#32)
      (h : s.heap.array? (s.reg b).toNat = none) : FailsWith (.loadprog b c) s .outOfBoundsAccess
  | div {a b c : Reg} {s : State} (h : s.reg c = 0#32) : FailsWith (.div a b c) s .divisionByZero
  | abandonZero {c : Reg} {s : State} (h : s.reg c = 0#32) : FailsWith (.abandon c) s .invalidAbandon
  | abandonFree {c : Reg} {s : State} (h : s.heap.array? (s.reg c).toNat = none) :
      FailsWith (.abandon c) s .invalidAbandon
  | out {c : Reg} {s : State} (h : 255 < (s.reg c).toNat) : FailsWith (.out c) s .outputOutOfRange
  | allocWords {b c : Reg} {s : State}
      (h : ExceedsCapacity s ((s.reg c).toNat + s.heap.usedWords)) :
      FailsWith (.alloc b c) s .resourceExhausted
  | allocHandles {b c : Reg} {s : State} (h : ¬ HandleFree s) :
      FailsWith (.alloc b c) s .resourceExhausted
  | loadprogWords {b c : Reg} {s : State} {ws p : List Word} (h0 : s.reg b ≠ 0#32)
      (h : s.heap.array? (s.reg b).toNat = some ws) (hp : s.heap.array? 0 = some p)
      (hc : ExceedsCapacity s (ws.length + s.heap.usedWords - p.length)) :
      FailsWith (.loadprog b c) s .resourceExhausted

/-! ### Safe runs -/

/-- `t` is reached from `s` by steps of the model. -/
inductive Reaches : State → State → Prop where
  | refl (s : State) : Reaches s s
  | tail {s t u : State} : Reaches s t → step t = .next u → Reaches s u

/-- A run is safe when no state it reaches has failed (60_exceptions.md R220). -/
def NeverFails (s : State) : Prop := ∀ t r, Reaches s t → t.state ≠ .failed r

end Sys2Proof.Machine
end

