-- ==== Sys2Proof/Certificates/Slice0/Obligations.lean ====
section
/-!
DEFINITION. The statements for the provers. "The other fields" of a frame are every field of State that a
statement does not name otherwise: registers, finger, heap, pending output, state machine, host inputs and
parameters. A statement whose docstring names a decision D<n> rests on a choice of the spec's own
(92_eei_decisions.md), one that names a log entry on a choice of the model's.
-/

open Sys2Proof Sys2Proof.Machine

/-! ### Encoding -/

/-- Words of 95_test_vectors.md 2.1 decode as listed there (opcode numbers: the spec's D1, log 8). -/
def Obligations.SampleWordsDecodeAsListed : Prop :=
  decode 0x0000000A#32 = .cmov 0 1 2 ∧ decode 0x30000081#32 = .add 2 0 1 ∧
  decode 0x1234567F#32 = .index 1 7 7 ∧ decode 0x7ABCDEF0#32 = .halt ∧
  decode 0x8000003A#32 = .alloc 7 2 ∧ decode 0xC0000010#32 = .loadprog 2 0 ∧
  decode 0xDE00000B#32 = .orth 7 11#32 ∧ decode 0xDFFFFFFF#32 = .orth 7 0x01FFFFFF#32 ∧
  decode 0xEFFFFFFF#32 = .illegal14 ∧ decode 0xF0000000#32 = .illegal15

/-- 30_encoding.md R93: the register fields are A = w[8:6], B = w[5:3], C = w[2:0] and A' = w[27:25]. -/
def Obligations.RegisterFieldsAreBitRanges : Prop :=
  ∀ w : Word, (fieldA w).val = w.toNat / 2 ^ 6 % 8 ∧ (fieldB w).val = w.toNat / 2 ^ 3 % 8 ∧
    (fieldC w).val = w.toNat % 8 ∧ (fieldA' w).val = w.toNat / 2 ^ 25 % 8

/-- 30_encoding.md R98 with R96's opcode map (the numbers 0 to 12: the spec's D1, log 8): the instruction
of every word, by its top four bits. -/
def Obligations.DecodeByOpcodeNumber : Prop :=
  ∀ w : Word, ∀ a b c a' : Reg, ∀ imm : Word,
    a.val = w.toNat / 2 ^ 6 % 8 → b.val = w.toNat / 2 ^ 3 % 8 → c.val = w.toNat % 8 →
    a'.val = w.toNat / 2 ^ 25 % 8 → imm.toNat = w.toNat % 2 ^ 25 →
    (w.toNat / 2 ^ 28 = 0 → decode w = .cmov a b c) ∧
    (w.toNat / 2 ^ 28 = 1 → decode w = .index a b c) ∧
    (w.toNat / 2 ^ 28 = 2 → decode w = .amend a b c) ∧
    (w.toNat / 2 ^ 28 = 3 → decode w = .add a b c) ∧
    (w.toNat / 2 ^ 28 = 4 → decode w = .mul a b c) ∧
    (w.toNat / 2 ^ 28 = 5 → decode w = .div a b c) ∧
    (w.toNat / 2 ^ 28 = 6 → decode w = .nand a b c) ∧
    (w.toNat / 2 ^ 28 = 7 → decode w = .halt) ∧
    (w.toNat / 2 ^ 28 = 8 → decode w = .alloc b c) ∧
    (w.toNat / 2 ^ 28 = 9 → decode w = .abandon c) ∧
    (w.toNat / 2 ^ 28 = 10 → decode w = .out c) ∧
    (w.toNat / 2 ^ 28 = 11 → decode w = .inp c) ∧
    (w.toNat / 2 ^ 28 = 12 → decode w = .loadprog b c) ∧
    (w.toNat / 2 ^ 28 = 13 → decode w = .orth a' imm) ∧
    (w.toNat / 2 ^ 28 = 14 → decode w = .illegal14) ∧
    (w.toNat / 2 ^ 28 = 15 → decode w = .illegal15)

/-- Decode and encode agree: no operand of any well-formed instruction is dropped (30_encoding.md R98, R99;
D1, D2). -/
def Obligations.DecodeOfEncodeIsIdentity : Prop :=
  ∀ i : Instr, i.wellFormed = true → decode (encode i) = i

/-- The other direction: encoding what a word decodes to gives the word back with its unused bits written
as 0, and every word decodes to a well-formed instruction (30_encoding.md R95, R99; D2). -/
def Obligations.EncodeOfDecodeClearsUnusedBits : Prop :=
  ∀ w : Word, (decode w).wellFormed = true ∧ encode (decode w) = w &&& usedMask (w.toNat / 2 ^ 28)

/-- Words that differ in unused bits only decode to the same instruction (30_encoding.md R95, the spec's own
choice D2, log 17). -/
def Obligations.UnusedBitsAreIgnored : Prop :=
  ∀ w w' : Word, w &&& usedMask (w.toNat / 2 ^ 28) = w' &&& usedMask (w.toNat / 2 ^ 28) →
    decode w = decode w'

/-- 30_encoding.md R97, 60_exceptions.md R221, 40_engine_cycle.md R123: exactly the words with opcode 14 or
15 are illegal, whatever their other bits; what executing one does is to fail with IllegalOpcode, and
nothing else changes. -/
def Obligations.IllegalWordsFailWithIllegalOpcode : Prop :=
  (∀ w : Word, (decode w = .illegal14 ↔ w.toNat / 2 ^ 28 = 14) ∧
    (decode w = .illegal15 ↔ w.toNat / 2 ^ 28 = 15)) ∧
  (∀ s : State, exec .illegal14 s = .next { s with state := .failed .illegalOpcode } ∧
    exec .illegal15 s = .next { s with state := .failed .illegalOpcode }) ∧
  ∀ (s : State) (w : Word), s.state = .idle → s.fetch = .ok w →
    w.toNat / 2 ^ 28 = 14 ∨ w.toNat / 2 ^ 28 = 15 →
    step s = .next { s with state := .failed .illegalOpcode }

/-- The decoder on bytes reads one big-endian word and leaves the rest; fewer than four bytes are refused by
name (20_memory.md R63, 30_encoding.md R92). -/
def Obligations.BytesDecodeBigEndian : Prop :=
  (∀ b0 b1 b2 b3 : Byte, ∀ rest : List Byte, ∃ w : Word,
    w.toNat = b0.toNat * 2 ^ 24 + b1.toNat * 2 ^ 16 + b2.toNat * 2 ^ 8 + b3.toNat ∧
    decodeBytes (b0 :: b1 :: b2 :: b3 :: rest) = .ok (decode w, rest)) ∧
  (∀ w : Word, ∀ rest : List Byte, decodeBytes (bytesOfWord w ++ rest) = .ok (decode w, rest)) ∧
  (∀ bs : List Byte, bs.length < 4 → decodeBytes bs = .error .truncated)

/-! ### Conditional move and array access -/

/-- 41_move_array.md R150: CMOV always completes; x[A] becomes x[B] where x[C] is not 0. -/
def Obligations.CmovMovesWhenConditionNonZero : Prop :=
  (∀ w : Word, w &&& 0xF0000000#32 = 0x00000000#32 →
    decode w = .cmov (fieldA w) (fieldB w) (fieldC w)) ∧
  ∀ (a b c : Reg) (s : State), ∃ t, exec (.cmov a b c) s = .next t ∧
    t.reg a = (if s.reg c ≠ 0#32 then s.reg b else s.reg a) ∧ SameRegsExcept [a] s t ∧
    t.pc = s.pc + 1#32 ∧ t.state = s.state ∧ SameMemory s t ∧ SameHostSide s t

/-- 41_move_array.md R151: INDEX loads the word at offset x[C] of array x[B], or fails with
OutOfBoundsAccess. -/
def Obligations.IndexLoadsOrFailsOutOfBounds : Prop :=
  (∀ w : Word, w &&& 0xF0000000#32 = 0x10000000#32 →
    decode w = .index (fieldA w) (fieldB w) (fieldC w)) ∧
  ∀ (a b c : Reg) (s : State),
    (∀ ws v, s.heap.array? (s.reg b).toNat = some ws → ws[(s.reg c).toNat]? = some v →
      ∃ t, exec (.index a b c) s = .next t ∧ t.reg a = v ∧ SameRegsExcept [a] s t ∧
        t.pc = s.pc + 1#32 ∧ t.state = s.state ∧ SameMemory s t ∧ SameHostSide s t) ∧
    (OutOfBounds s (s.reg b) (s.reg c) →
      exec (.index a b c) s = .next { s with state := .failed .outOfBoundsAccess })

/-- 41_move_array.md R152: AMEND stores x[C] at offset x[B] of array x[A], and nothing else of memory
changes; or it fails with OutOfBoundsAccess. -/
def Obligations.AmendStoresOneWordOrFails : Prop :=
  (∀ w : Word, w &&& 0xF0000000#32 = 0x20000000#32 →
    decode w = .amend (fieldA w) (fieldB w) (fieldC w)) ∧
  ∀ (a b c : Reg) (s : State),
    (∀ ws, s.heap.array? (s.reg a).toNat = some ws → (s.reg b).toNat < ws.length →
      ∃ t, exec (.amend a b c) s = .next t ∧
        t.heap.array? (s.reg a).toNat = some (ws.set (s.reg b).toNat (s.reg c)) ∧
        SameMemoryExcept (s.reg a).toNat s t ∧ SameRegsExcept [] s t ∧
        t.pc = s.pc + 1#32 ∧ t.state = s.state ∧ SameHostSide s t) ∧
    (OutOfBounds s (s.reg a) (s.reg b) →
      exec (.amend a b c) s = .next { s with state := .failed .outOfBoundsAccess })

/-! ### ALU -/

/-- 42_alu.md R161: ADD wraps modulo 2^32. -/
def Obligations.AddWrapsModulo : Prop :=
  (∀ w : Word, w &&& 0xF0000000#32 = 0x30000000#32 →
    decode w = .add (fieldA w) (fieldB w) (fieldC w)) ∧
  ∀ (a b c : Reg) (s : State), ∃ t, exec (.add a b c) s = .next t ∧
    (t.reg a).toNat = ((s.reg b).toNat + (s.reg c).toNat) % 2 ^ 32 ∧ SameRegsExcept [a] s t ∧
    t.pc = s.pc + 1#32 ∧ t.state = s.state ∧ SameMemory s t ∧ SameHostSide s t

/-- 42_alu.md R162: MUL gives the low 32 bits of the product. -/
def Obligations.MulWrapsModulo : Prop :=
  (∀ w : Word, w &&& 0xF0000000#32 = 0x40000000#32 →
    decode w = .mul (fieldA w) (fieldB w) (fieldC w)) ∧
  ∀ (a b c : Reg) (s : State), ∃ t, exec (.mul a b c) s = .next t ∧
    (t.reg a).toNat = ((s.reg b).toNat * (s.reg c).toNat) % 2 ^ 32 ∧ SameRegsExcept [a] s t ∧
    t.pc = s.pc + 1#32 ∧ t.state = s.state ∧ SameMemory s t ∧ SameHostSide s t

/-- 42_alu.md R163: DIV gives the unsigned quotient, and fails with DivisionByZero for divisor 0 whatever
the dividend, with x[A] and pc unchanged. -/
def Obligations.DivQuotientOrDivisionByZero : Prop :=
  (∀ w : Word, w &&& 0xF0000000#32 = 0x50000000#32 →
    decode w = .div (fieldA w) (fieldB w) (fieldC w)) ∧
  ∀ (a b c : Reg) (s : State),
    (s.reg c ≠ 0#32 → ∃ t, exec (.div a b c) s = .next t ∧
      (t.reg a).toNat = (s.reg b).toNat / (s.reg c).toNat ∧ SameRegsExcept [a] s t ∧
      t.pc = s.pc + 1#32 ∧ t.state = s.state ∧ SameMemory s t ∧ SameHostSide s t) ∧
    (s.reg c = 0#32 → exec (.div a b c) s = .next { s with state := .failed .divisionByZero })

/-- 42_alu.md R164: NAND, bit by bit over all 32 bits. -/
def Obligations.NandComplementsConjunction : Prop :=
  (∀ w : Word, w &&& 0xF0000000#32 = 0x60000000#32 →
    decode w = .nand (fieldA w) (fieldB w) (fieldC w)) ∧
  ∀ (a b c : Reg) (s : State), ∃ t, exec (.nand a b c) s = .next t ∧
    (∀ k, k < 32 → (t.reg a).getLsbD k = !((s.reg b).getLsbD k && (s.reg c).getLsbD k)) ∧
    SameRegsExcept [a] s t ∧
    t.pc = s.pc + 1#32 ∧ t.state = s.state ∧ SameMemory s t ∧ SameHostSide s t

/-! ### Control -/

/-- 43_control.md R180: HALT enters Halted and changes nothing else, pc included; the run that executes it
returns every byte still pending. -/
def Obligations.HaltKeepsEverythingElse : Prop :=
  (∀ w : Word, w &&& 0xF0000000#32 = 0x70000000#32 → decode w = .halt) ∧
  (∀ s : State, exec .halt s = .next { s with state := .halted }) ∧
  ∀ (s : State) (w : Word) (k : Nat), s.state = .idle → s.fetch = .ok w → decode w = .halt → 1 ≤ k →
    runBounded k s = .next (s.outq, { s with state := .halted, outq := [] })

/-- 43_control.md R182 and R183 (the reasons and the late check of the target: the spec's D7, D8, D11): with
x[B] = 0 LOADPROG is a jump; else array 0 becomes a copy of array x[B], which stays; pc becomes x[C]
unchecked; a free handle fails with OutOfBoundsAccess, then a copy that does not fit with
ResourceExhausted. -/
def Obligations.LoadprogReplacesProgramOrJumps : Prop :=
  (∀ w : Word, w &&& 0xF0000000#32 = 0xC0000000#32 →
    decode w = .loadprog (fieldB w) (fieldC w)) ∧
  ∀ (b c : Reg) (s : State),
    (s.reg b = 0#32 → exec (.loadprog b c) s = .next { s with pc := s.reg c }) ∧
    (∀ ws p, s.reg b ≠ 0#32 → s.heap.array? (s.reg b).toNat = some ws → s.heap.array? 0 = some p →
      ¬ ExceedsCapacity s (ws.length + s.heap.usedWords - p.length) →
      ∃ t, exec (.loadprog b c) s = .next t ∧ t.heap.array? 0 = some ws ∧ SameMemoryExcept 0 s t ∧
        SameRegsExcept [] s t ∧ t.pc = s.reg c ∧ t.state = s.state ∧ SameHostSide s t) ∧
    (s.reg b ≠ 0#32 → s.heap.array? (s.reg b).toNat = none →
      exec (.loadprog b c) s = .next { s with state := .failed .outOfBoundsAccess }) ∧
    (∀ ws p, s.reg b ≠ 0#32 → s.heap.array? (s.reg b).toNat = some ws → s.heap.array? 0 = some p →
      ExceedsCapacity s (ws.length + s.heap.usedWords - p.length) →
      exec (.loadprog b c) s = .next { s with state := .failed .resourceExhausted })

/-- 43_control.md R183 (the late detection: the spec's D8): a jump past the end of array 0 succeeds in Idle,
and the next step fails at fetch with OutOfBoundsAccess and pc = x[C]. -/
def Obligations.JumpPastEndFailsAtNextFetch : Prop :=
  ∀ (b c : Reg) (s : State), s.state = .idle → s.reg b = 0#32 → OutOfBounds s 0#32 (s.reg c) →
    ∃ t, exec (.loadprog b c) s = .next t ∧ t.state = .idle ∧
      step t = .next { s with pc := s.reg c, state := .failed .outOfBoundsAccess }

/-- A corner case of 43_control.md R182: a jump to pc itself loops for ever on this instruction without
failing (runs are runs of the model's step, log 1). -/
def Obligations.JumpToItselfNeverFails : Prop :=
  ∀ (s : State) (w : Word) (b c : Reg), s.state = .idle → s.fetch = .ok w →
    decode w = .loadprog b c → s.reg b = 0#32 → s.reg c = s.pc →
    NeverFails s ∧ ∀ t, Reaches s t → t = s

/-! ### Heap allocation -/

/-- 44_heap_ops.md R190, 20_memory.md R54 and R56 (zero size D9, minting order D10, exhaustion D11, what
MAX_LIVE_HANDLES counts: log 4): ALLOC issues the smallest free non-zero handle for a zero-filled array of
x[C] words, and changes nothing else; or it fails with ResourceExhausted. -/
def Obligations.AllocIssuesSmallestFreeHandle : Prop :=
  (∀ w : Word, w &&& 0xF0000000#32 = 0x80000000#32 → decode w = .alloc (fieldB w) (fieldC w)) ∧
  ∀ (b c : Reg) (s : State), s.heap.wf →
    (¬ ExceedsCapacity s ((s.reg c).toNat + s.heap.usedWords) → HandleFree s →
      ∃ t h, exec (.alloc b c) s = .next t ∧ 1 ≤ h ∧ s.heap.array? h = none ∧
        (∀ k, 1 ≤ k → k < h → s.heap.array? k ≠ none) ∧ (t.reg b).toNat = h ∧
        t.heap.array? h = some (List.replicate (s.reg c).toNat 0#32) ∧ SameMemoryExcept h s t ∧
        SameRegsExcept [b] s t ∧ t.pc = s.pc + 1#32 ∧ t.state = s.state ∧ SameHostSide s t) ∧
    (ExceedsCapacity s ((s.reg c).toNat + s.heap.usedWords) ∨ ¬ HandleFree s →
      exec (.alloc b c) s = .next { s with state := .failed .resourceExhausted })

/-- 44_heap_ops.md R191, 20_memory.md R55 (the reason for a free handle: the spec's D6, log 9): ABANDON
frees a live non-zero handle and changes nothing else; or it fails with InvalidAbandon. -/
def Obligations.AbandonFreesHandleOrFails : Prop :=
  (∀ w : Word, w &&& 0xF0000000#32 = 0x90000000#32 → decode w = .abandon (fieldC w)) ∧
  ∀ (c : Reg) (s : State),
    (s.reg c ≠ 0#32 → s.heap.array? (s.reg c).toNat ≠ none →
      ∃ t, exec (.abandon c) s = .next t ∧ t.heap.array? (s.reg c).toNat = none ∧
        SameMemoryExcept (s.reg c).toNat s t ∧ SameRegsExcept [] s t ∧ t.pc = s.pc + 1#32 ∧
        t.state = s.state ∧ SameHostSide s t) ∧
    (s.reg c = 0#32 ∨ s.heap.array? (s.reg c).toNat = none →
      exec (.abandon c) s = .next { s with state := .failed .invalidAbandon })

/-- 95_test_vectors.md L1-3 and 20_memory.md R56 (D10): ALLOC, ABANDON of that handle and ALLOC again give
the same handle, and the heap in between is the heap before, as data. -/
def Obligations.AbandonedHandleIsReissued : Prop :=
  ∀ (b c : Reg) (s t : State), s.heap.wf → s.state = .idle → b ≠ c →
    exec (.alloc b c) s = .next t → t.state = .idle →
    ∃ u v, exec (.abandon b) t = .next u ∧ u.heap = s.heap ∧
      exec (.alloc b c) u = .next v ∧ v.state = .idle ∧ v.reg b = t.reg b ∧ v.heap = t.heap

/-! ### Output and input -/

/-- 45_io.md R200: OUT appends the byte x[C] and changes nothing else, or fails with OutputOutOfRange above
255, on the full value. -/
def Obligations.OutAppendsByteOrFails : Prop :=
  (∀ w : Word, w &&& 0xF0000000#32 = 0xA0000000#32 → decode w = .out (fieldC w)) ∧
  ∀ (c : Reg) (s : State),
    ((s.reg c).toNat ≤ 255 → ∃ t b, exec (.out c) s = .next t ∧ t.outq = s.outq ++ [b] ∧
      b.toNat = (s.reg c).toNat ∧ SameRegsExcept [] s t ∧ SameMemory s t ∧ t.pc = s.pc + 1#32 ∧
      t.state = s.state ∧ t.hostIn = s.hostIn ∧ t.config = s.config) ∧
    (255 < (s.reg c).toNat →
      exec (.out c) s = .next { s with state := .failed .outputOutOfRange })

/-- 45_io.md R203: IN enters Waiting(C) and changes nothing else; the run that executes it returns at once
with the pending bytes. -/
def Obligations.InEntersWaiting : Prop :=
  (∀ w : Word, w &&& 0xF0000000#32 = 0xB0000000#32 → decode w = .inp (fieldC w)) ∧
  (∀ (c : Reg) (s : State), exec (.inp c) s = .next { s with state := .waiting c }) ∧
  ∀ (s : State) (w : Word) (c : Reg) (k : Nat), s.state = .idle → s.fetch = .ok w →
    decode w = .inp c → 1 ≤ k →
    runBounded k s = .next (s.outq, { s with state := .waiting c, outq := [] })

/-- 45_io.md R205: the resumption writes the byte zero-extended, or all ones at end-of-input, advances pc
and returns to Idle; nothing else changes. -/
def Obligations.ResumptionCompletesInput : Prop :=
  ∀ (c : Reg) (s : State) (i : HostInput), s.state = .waiting c →
    ∃ t, supplyInput i s = .next t ∧
      (∀ b : Byte, i = .byte b → (t.reg c).toNat = b.toNat) ∧
      (i = .endOfInput → t.reg c = 0xFFFFFFFF#32) ∧
      SameRegsExcept [c] s t ∧ t.pc = s.pc + 1#32 ∧ t.state = .idle ∧ SameMemory s t ∧
      SameHostSide s t

/-- The model's transition out of Waiting (log 1, log 2): with an input scheduled it is the host's
supply_input of it; with none the machine stays as it is. -/
def Obligations.WaitingStepSuppliesNextInput : Prop :=
  ∀ (c : Reg) (s : State), s.state = .waiting c →
    (∀ i rest, s.hostIn = i :: rest → step s = supplyInput i { s with hostIn := rest }) ∧
    (s.hostIn = [] → step s = .next s)

/-- 95_test_vectors.md L1-5: OUT of a register just filled by the host echoes the byte, and fails with
OutputOutOfRange at end-of-input, with no byte output. -/
def Obligations.InputThenOutputEchoes : Prop :=
  ∀ (c : Reg) (s t : State) (i : HostInput), s.state = .waiting c → supplyInput i s = .next t →
    (∀ b : Byte, i = .byte b →
      ∃ u, exec (.out c) t = .next u ∧ u.outq = s.outq ++ [b] ∧ u.state = .idle ∧
        u.pc = s.pc + 2#32) ∧
    (i = .endOfInput →
      ∃ u, exec (.out c) t = .next u ∧ u.outq = s.outq ∧ u.state = .failed .outputOutOfRange ∧
        u.pc = s.pc + 1#32)

/-! ### Immediate load -/

/-- 46_immediate.md R215: ORTH loads the 25-bit immediate, zero-extended, and changes nothing else. -/
def Obligations.OrthLoadsImmediate : Prop :=
  (∀ w : Word, w &&& 0xF0000000#32 = 0xD0000000#32 → ∃ (a : Reg) (imm : Word),
    decode w = .orth a imm ∧ a.val = w.toNat / 2 ^ 25 % 8 ∧ imm.toNat = w.toNat % 2 ^ 25) ∧
  ∀ (a : Reg) (imm : Word) (s : State), ∃ t, exec (.orth a imm) s = .next t ∧ t.reg a = imm ∧
    SameRegsExcept [a] s t ∧
    t.pc = s.pc + 1#32 ∧ t.state = s.state ∧ SameMemory s t ∧ SameHostSide s t

/-! ### The step -/

/-- 40_engine_cycle.md R121: from Idle, a step is exec of the instruction that the word at the finger
decodes to, with nothing around it (pc advances inside exec). -/
def Obligations.StepRunsDecodedInstruction : Prop :=
  ∀ (s : State) (w : Word) (i : Instr), s.state = .idle → s.fetch = .ok w → decode w = i →
    step s = exec i s

/-- 20_memory.md R62, 40_engine_cycle.md R122: fetch reads the word of the current array 0 at the finger, or
fails with OutOfBoundsAccess where the finger is at or past its end; the step then fails with it before
anything is decoded, pc keeps its value and nothing else changes. -/
def Obligations.FetchReadsProgramOrFailsStep : Prop :=
  ∀ s : State,
    (∀ ws v, s.heap.array? 0 = some ws → ws[s.pc.toNat]? = some v → s.fetch = .ok v) ∧
    (OutOfBounds s 0#32 s.pc → s.fetch = .error .outOfBoundsAccess) ∧
    (s.state = .idle → OutOfBounds s 0#32 s.pc →
      step s = .next { s with state := .failed .outOfBoundsAccess })

/-- The instruction placed by withFetchWord is the one the very next step runs (log 6). -/
def Obligations.PlacedWordIsRunNext : Prop :=
  ∀ (s : State) (w : Word),
    step (s.withFetchWord 32 w.toNat) = exec (decode w) (s.withFetchWord 32 w.toNat) ∧
    (s.withFetchWord 32 w.toNat).pc = s.pc ∧ SameRegsExcept [] s (s.withFetchWord 32 w.toNat) ∧
    SameMemoryExcept 0 s (s.withFetchWord 32 w.toNat) ∧ SameHostSide s (s.withFetchWord 32 w.toNat)

/-- No instruction and no transition stops the model: exec and step answer a next state for every
instruction and every state (40_engine_cycle.md R127: a step completes or fails, and a failure is a state;
outside Idle: log 1). -/
def Obligations.EveryStepHasNextState : Prop :=
  (∀ (i : Instr) (s : State), ∃ t, exec i s = .next t) ∧ ∀ s : State, ∃ t, step s = .next t

/-- 40_engine_cycle.md R125: on success pc advances by one but for HALT and IN, which leave it, and LOADPROG,
which sets it to x[C]; a failing step leaves it (for every failure: the spec's D5); the resumption of IN
advances it; after a fetch the addition never overflows (derived in 10_state.md R26). -/
def Obligations.FingerUpdateRule : Prop :=
  (∀ (i : Instr) (s t : State), s.state = .idle → exec i s = .next t →
    (∀ r, t.state = .failed r → t.pc = s.pc) ∧
    ((∀ r, t.state ≠ .failed r) →
      t.pc = match i with
        | .halt => s.pc
        | .inp _ => s.pc
        | .loadprog _ c => s.reg c
        | _ => s.pc + 1#32)) ∧
  (∀ (c : Reg) (s t : State) (i : HostInput), s.state = .waiting c → supplyInput i s = .next t →
    t.pc = s.pc + 1#32) ∧
  (∀ (s : State) (w : Word), s.heap.wf → s.fetch = .ok w →
    (s.pc + 1#32).toNat = s.pc.toNat + 1)

/-- The "writes" column of 10_state.md R22, derived there from the instruction rules: an instruction's step
writes no register but the one listed. -/
def Obligations.OnlyListedRegisterIsWritten : Prop :=
  ∀ (i : Instr) (s t : State) (r : Reg), exec i s = .next t → i.dest ≠ some r → t.reg r = s.reg r

/-- The "reads" column of 10_state.md R22, derived there from the instruction rules: what an instruction does
depends on no register but those listed. Two states that differ in other registers only give results that
differ in registers the instruction left alone only. -/
def Obligations.OnlyListedRegistersAreRead : Prop :=
  ∀ (i : Instr) (s t : State) (y : Vector Word 8),
    (∀ r ∈ i.sources, ({ s with x := y } : State).reg r = s.reg r) → exec i s = .next t →
    ∃ u, exec i { s with x := y } = .next u ∧ u.pc = t.pc ∧ u.heap = t.heap ∧ u.outq = t.outq ∧
      u.state = t.state ∧ u.hostIn = t.hostIn ∧ u.config = t.config ∧
      ∀ r, u.reg r = t.reg r ∨ (t.reg r = s.reg r ∧ u.reg r = ({ s with x := y } : State).reg r)

/-- 40_engine_cycle.md R124 for the parts of the state it leaves out: no instruction's effect depends on the
pending output or on the host's inputs. -/
def Obligations.MeaningIgnoresPendingOutputAndInput : Prop :=
  ∀ (i : Instr) (s t : State) (q : List Byte) (p : List HostInput), exec i s = .next t →
    exec i { s with outq := q ++ s.outq, hostIn := p } =
      .next { t with outq := q ++ t.outq, hostIn := p }

/-- 45_io.md R201 (the unbounded queue: the spec's D14, log 7; a finite OUTQ_CAPACITY: log 21): a step appends to the pending output only by
OUT, one byte at the end, and never takes a byte away. -/
def Obligations.OutputGrowsInExecutionOrder : Prop :=
  ∀ s t : State, step s = .next t → t.outq = s.outq ∨
    ∃ (w : Word) (c : Reg) (b : Byte), s.state = .idle ∧ s.fetch = .ok w ∧ decode w = .out c ∧
      b.toNat = (s.reg c).toNat ∧ t.outq = s.outq ++ [b]

/-! ### Failures -/

/-- 40_engine_cycle.md R127 and 60_exceptions.md R230 (for every failure, not only division: the spec's D5):
a step into Failed changes nothing but the state machine. -/
def Obligations.FailingStepChangesOnlyState : Prop :=
  ∀ (s t : State) (r : FailReason), step s = .next t → t.state = .failed r →
    t = { s with state := .failed r }

/-- 60_exceptions.md R227 and R228, the complete cause table in priority order (numbers and reasons: the
spec's D6, D7, D11, D23; what MAX_LIVE_HANDLES counts, and so when ALLOC fails at it: DEDUCED, log 4): from Idle a step fails with a reason exactly when the fetch is out of bounds and
the reason is OutOfBoundsAccess, or the fetched instruction has that row of the table. -/
def Obligations.CauseTableIsComplete : Prop :=
  ∀ (s t : State) (r : FailReason), s.wf → s.state = .idle → step s = .next t →
    (t.state = .failed r ↔
      (OutOfBounds s 0#32 s.pc ∧ r = .outOfBoundsAccess) ∨
      ∃ w, s.fetch = .ok w ∧ FailsWith (decode w) s r)

/-- The complete transitions of the state machine (10_state.md R29; that nothing happens in a terminal state
or without an input is the model's log 1). -/
def Obligations.StateMachineTransitions : Prop :=
  ∀ s t : State, step s = .next t →
    (∀ w, s.state = .idle → s.fetch = .ok w →
      (t.state = .halted ↔ decode w = .halt) ∧ (∀ c, t.state = .waiting c ↔ decode w = .inp c) ∧
      (t.state = .idle ∨ t.state = .halted ∨ (∃ c, t.state = .waiting c) ∨
        ∃ r, t.state = .failed r)) ∧
    (∀ c, s.state = .waiting c → (t.state = .idle ∧ s.hostIn ≠ []) ∨ (t = s ∧ s.hostIn = [])) ∧
    (s.state = .halted → t = s) ∧ (∀ r, s.state = .failed r → t = s)

/-- A machine that has halted or failed never changes again, however many steps are asked for
(43_control.md R181, 60_exceptions.md R231; that such a step answers the same state: log 1). -/
def Obligations.TerminalStatesAreNeverLeft : Prop :=
  ∀ (s : State) (k : Nat), (s.state = .halted ∨ ∃ r, s.state = .failed r) →
    Sys2Proof.core.run k s = .next s

/-! ### Memory -/

/-- 20_memory.md R57: MemRead is bounds-checked. -/
def Obligations.MemReadIsBoundsChecked : Prop :=
  ∀ (s : State) (h o : Word),
    (∀ ws v, s.heap.array? h.toNat = some ws → ws[o.toNat]? = some v → s.memRead h o = .ok v) ∧
    (OutOfBounds s h o → s.memRead h o = .error .outOfBoundsAccess)

/-- 20_memory.md R58: MemWrite makes MemRead's check, then stores one word; nothing else changes, the length
of the array included; a later read of that word gives the value (R69). -/
def Obligations.MemWriteStoresOneWord : Prop :=
  ∀ (s : State) (h o v : Word),
    (∀ ws, s.heap.array? h.toNat = some ws → o.toNat < ws.length →
      ∃ t, s.memWrite h o v = .ok t ∧ t.heap.array? h.toNat = some (ws.set o.toNat v) ∧
        SameMemoryExcept h.toNat s t ∧ t.memRead h o = .ok v ∧ SameRegsExcept [] s t ∧ t.pc = s.pc ∧
        t.state = s.state ∧ SameHostSide s t) ∧
    (OutOfBounds s h o → s.memWrite h o v = .error .outOfBoundsAccess)

/-- 20_memory.md R72: every fetch reads array 0 (that of the state it starts from, R62) as the last AMEND to
handle 0 or the last LOADPROG left it: such a step leaves the new contents there for the very next fetch,
and no other instruction changes array 0. -/
def Obligations.FetchSeesEveryProgramWrite : Prop :=
  ∀ (i : Instr) (s t : State), s.wf → s.state = .idle → exec i s = .next t → t.state = .idle →
    (∀ a b c, i = .amend a b c → s.reg a = 0#32 →
      (∀ ws, s.heap.array? 0 = some ws →
        t.heap.array? 0 = some (ws.set (s.reg b).toNat (s.reg c))) ∧
      (s.reg b = s.pc + 1#32 → t.fetch = .ok (s.reg c))) ∧
    (∀ b c, i = .loadprog b c → s.reg b ≠ 0#32 →
      t.heap.array? 0 = s.heap.array? (s.reg b).toNat ∧
      t.fetch = s.memRead (s.reg b) (s.reg c)) ∧
    ((∀ a b c, i = .amend a b c → s.reg a ≠ 0#32) → (∀ b c, i = .loadprog b c → s.reg b = 0#32) →
      t.heap.array? 0 = s.heap.array? 0)

/-- 20_memory.md R53 for a machine already created (the bound on images is the spec's D12): the length of an
array that stays live changes only for array 0, by LOADPROG. -/
def Obligations.ArrayLengthsAreFixed : Prop :=
  ∀ (i : Instr) (s t : State) (h n m : Nat), s.heap.wf → exec i s = .next t →
    s.heap.length? h = some n → t.heap.length? h = some m → m ≠ n →
    h = 0 ∧ ∃ b c, i = .loadprog b c ∧ s.reg b ≠ 0#32

/-- The canonical form is canonical: two heaps with the same arrays are the same data (10_state.md R30;
log 5). -/
def Obligations.EqualArraysMakeEqualHeaps : Prop :=
  ∀ m m' : Memory, m.wf → m'.wf → (∀ h, m.array? h = m'.array? h) → m = m'

/-! ### Invariants -/

/-- Every step keeps the heap in canonical form, array 0 live (20_memory.md R51) and the handle limit legal
(00_scope.md R10). -/
def Obligations.StepKeepsWellFormedHeap : Prop :=
  ∀ s t : State, s.wf → step s = .next t → t.wf

/-- Every step keeps the heap within the capacity parameters (00_scope.md R10; the spec's D11; what
MAX_LIVE_HANDLES counts: log 4). -/
def Obligations.StepKeepsWithinCapacity : Prop :=
  ∀ s t : State, s.wf → s.withinCapacity → step s = .next t → t.withinCapacity

/-- Every step keeps the latch of the pending-input register: in Waiting(c) the finger points at the IN
instruction whose field C is c (10_state.md R33, derived there). -/
def Obligations.StepKeepsWaitingLatch : Prop :=
  ∀ s t : State, s.waitingLatch → step s = .next t → t.waitingLatch

/-- The three invariants hold at reset (the parameters there: log 3; what MAX_LIVE_HANDLES counts: DEDUCED,
log 4; the machine: log 6). -/
def Obligations.ResetMeetsInvariants : Prop :=
  State.reset.wf ∧ State.reset.withinCapacity ∧ State.reset.waitingLatch

/-- No transition changes the capacity parameters (10_state.md R37; held in State: log 3), and the host's
inputs are taken only in Waiting, one at a time, from the front (60_exceptions.md R232; log 2). -/
def Obligations.ParametersNeverChange : Prop :=
  ∀ s t : State, step s = .next t → t.config = s.config ∧
    (t.hostIn = s.hostIn ∨ ∃ c i, s.state = .waiting c ∧ s.hostIn = i :: t.hostIn)

/-! ### Creation -/

/-- 70_reset_and_hazards.md R252: array 0 of the machine that create makes is the image's big-endian words,
bytes 4k .. 4k+3 as word k, and as many words as the image has. -/
def Obligations.CreateLoadsBigEndianImage : Prop :=
  ∀ (c : Config) (image : List Byte) (s : State), create c image = .next s →
    ∃ ws, s.heap.array? 0 = some ws ∧ ws.length * 4 = image.length ∧
      ∀ k : Nat, k < ws.length → ∃ v b0 b1 b2 b3, ws[k]? = some v ∧ image[4 * k]? = some b0 ∧
        image[4 * k + 1]? = some b1 ∧ image[4 * k + 2]? = some b2 ∧ image[4 * k + 3]? = some b3 ∧
        v.toNat = b0.toNat * 2 ^ 24 + b1.toNat * 2 ^ 16 + b2.toNat * 2 ^ 8 + b3.toNat

/-- 10_state.md R36 (no other handle live, no output pending: derived there), for an image that R253 accepts
(D12): the machine that create makes has every register and pc 0, no handle live but 0, no pending output,
the given parameters, and is Idle. -/
def Obligations.CreateGivesResetValues : Prop :=
  ∀ (c : Config) (image : List Byte), image.length % 4 = 0 → image.length / 4 ≤ wordMax →
    ¬ (∃ cap, c.heapCapacityWords = some cap ∧ cap < image.length / 4) →
    ∃ s, create c image = .next s ∧ (∀ r, s.reg r = 0#32) ∧ s.pc = 0#32 ∧
      s.heap.array? 0 ≠ none ∧ (∀ h, h ≠ 0 → s.heap.array? h = none) ∧ s.outq = [] ∧
      s.state = .idle ∧ s.config = c

/-- What create refuses (70_reset_and_hazards.md R253, the spec's D12; the order of the refusals: log 16);
what it accepts meets the invariants (that a new machine's handle 0 does not count against MAX_LIVE_HANDLES:
DEDUCED, log 4). -/
def Obligations.CreateRefusesOrMeetsInvariants : Prop :=
  ∀ (c : Config) (image : List Byte),
    (image.length % 4 ≠ 0 → create c image = .refused .imageNotWholeWords) ∧
    (image.length % 4 = 0 → wordMax < image.length / 4 → create c image = .refused .imageTooLong) ∧
    (∀ cap, image.length % 4 = 0 → image.length / 4 ≤ wordMax → c.heapCapacityWords = some cap →
      cap < image.length / 4 → create c image = .refused .imageExceedsCapacity) ∧
    ∀ s, c.maxLiveHandles ≤ wordMax → create c image = .next s → s.wf ∧ s.withinCapacity ∧ s.waitingLatch

/-- The reset state (10_state.md R36 for the empty image, which R253 accepts by the spec's D13; log 6): every
register and pc 0, array 0 empty and alone, no output, Idle; and its first step fails at fetch. -/
def Obligations.ResetIsEmptyMachine : Prop :=
  (∀ r, State.reset.reg r = 0#32) ∧ State.reset.pc = 0#32 ∧ State.reset.heap.array? 0 = some [] ∧
  (∀ h, h ≠ 0 → State.reset.heap.array? h = none) ∧ State.reset.outq = [] ∧
  State.reset.state = .idle ∧
  step State.reset = .next { State.reset with state := .failed .outOfBoundsAccess }

/-! ### The host's operations -/

/-- 40_engine_cycle.md R130 (called outside Idle: the spec's D15): a run ends exactly in a state that is not
Idle, hands over all pending output, and has one result; outside Idle it makes no step. -/
def Obligations.RunEndsOutsideIdleWithAllOutput : Prop :=
  (∀ s out t, RunEnds s out t → t.state ≠ .idle ∧ t.outq = []) ∧
  (∀ s out out' t t', RunEnds s out t → RunEnds s out' t' → out = out' ∧ t = t') ∧
  (∀ s, s.state ≠ .idle → RunEnds s s.outq { s with outq := [] })

/-- 40_engine_cycle.md R131 (the budget: the spec's D22; budget 0: log 11): a run in two increments hands
over the same bytes, in order, and leaves the same machine as one run of both budgets together. -/
def Obligations.RunInIncrementsIsOneRun : Prop :=
  ∀ (j k : Nat) (s t u : State) (o₁ o₂ : List Byte), 1 ≤ j → 1 ≤ k →
    runBounded j s = .next (o₁, t) → runBounded k t = .next (o₂, u) →
    runBounded (j + k) s = .next (o₁ ++ o₂, u)

/-- Host calls in the wrong state (40_engine_cycle.md R132 to R134, the spec's D16): supply_input outside
Waiting is refused; `state` names the state, with the reason only in Failed; run in a terminal state makes
no step. -/
def Obligations.HostCallsOutsideTheirState : Prop :=
  ∀ s : State,
    ((∀ c, s.state ≠ .waiting c) → ∀ i, supplyInput i s = .refused .inputNotAwaited) ∧
    (stateQuery s = .idle ↔ s.state = .idle) ∧ (stateQuery s = .halted ↔ s.state = .halted) ∧
    (stateQuery s = .waiting ↔ ∃ c, s.state = .waiting c) ∧
    (∀ r, stateQuery s = .failed r ↔ s.state = .failed r) ∧
    ∀ k, 1 ≤ k → s.state ≠ .idle → runBounded k s = .next (s.outq, { s with outq := [] })

/-- 40_engine_cycle.md R147 and 95_test_vectors.md L1-8 (outq copied: the spec's D24; no input scheduled for
the clone: log 12; that clone answers in every state, Halted and Failed too: DESIGN CHOICE, log 20): the clone has every field of 10_state.md R20, its runs return the same bytes and leave
machines with the same fields, and the same input takes both out of Waiting alike. -/
def Obligations.CloneBehavesAlike : Prop :=
  ∀ s : State,
    ((clone s).x = s.x ∧ (clone s).pc = s.pc ∧ (clone s).heap = s.heap ∧ (clone s).outq = s.outq ∧
      (clone s).state = s.state ∧ (clone s).config = s.config) ∧
    (∀ k out t, runBounded k s = .next (out, t) →
      runBounded k (clone s) = .next (out, clone t)) ∧
    (∀ i t, supplyInput i s = .next t → supplyInput i (clone s) = .next (clone t))

/-- OUTQ_CAPACITY (00_scope.md R10, 10_state.md R32, the spec's D14; a finite value: DESIGN CHOICE, log 21):
no step but that of an OUT can take the pending output out of the capacity, nor can an OUT that finds room
for one byte; where the queue is unbounded every state is within it. -/
def Obligations.OutputStaysWithinCapacityWhileRoom : Prop :=
  (∀ s t : State, step s = .next t → fitsOutput s.config (s.outq.length + 1) = true →
    t.withinOutputCapacity) ∧
  (∀ s t : State, step s = .next t → s.withinOutputCapacity →
    (s.state = .idle → ∀ w c, s.fetch = .ok w → decode w ≠ .out c) → t.withinOutputCapacity) ∧
  ∀ s : State, s.config.outqCapacity = none → s.withinOutputCapacity
end

