-- ==== Sys2Proof/Laws/Memory.lean ====
section
/-!
SUPPORT. The laws of the heap's storage: read after write, the canonical form kept, the smallest free
handle, the sum of lengths; and the sparse arrays against the sequences of words they stand for.
-/

namespace Sys2Proof.Machine

section Keys

variable {α : Type}

theorem lookupKey_insertKey_self (l : List (Nat × α)) (q : Nat) (v : α) :
    lookupKey (insertKey l q v) q = some v := by
  induction l with
  | nil => simp [insertKey, lookupKey]
  | cons p rest ih =>
    obtain ⟨k, u⟩ := p
    simp only [insertKey]
    split
    · simp [lookupKey]
    · split
      · simp [lookupKey]
      · next h => simp [lookupKey, Ne.symm h, ih]

theorem lookupKey_insertKey_ne (l : List (Nat × α)) {q r : Nat} (v : α) (hr : r ≠ q) :
    lookupKey (insertKey l q v) r = lookupKey l r := by
  induction l with
  | nil => simp [insertKey, lookupKey, hr.symm]
  | cons p rest ih =>
    obtain ⟨k, u⟩ := p
    simp only [insertKey]
    split
    · simp [lookupKey, hr.symm]
    · split
      · next h => simp [lookupKey, ← h, hr.symm]
      · simp [lookupKey, ih]

/-- Read after insert. -/
theorem lookupKey_insertKey (l : List (Nat × α)) (q r : Nat) (v : α) :
    lookupKey (insertKey l q v) r = if r = q then some v else lookupKey l r := by
  split
  · next h => subst h; exact lookupKey_insertKey_self l r v
  · next h => exact lookupKey_insertKey_ne l v h

/-- Read after erase. -/
theorem lookupKey_eraseKey (l : List (Nat × α)) (q r : Nat) :
    lookupKey (eraseKey l q) r = if r = q then none else lookupKey l r := by
  induction l with
  | nil => simp [eraseKey, lookupKey]
  | cons p rest ih =>
    obtain ⟨k, u⟩ := p
    simp only [eraseKey]
    split
    · next h =>
      subst h
      rw [ih]
      split
      · rfl
      · next h' => simp [lookupKey, Ne.symm h']
    · next h =>
      simp only [lookupKey, ih]
      split
      · next h' => subst h'; simp [h]
      · rfl

theorem lookupKey_mem {l : List (Nat × α)} {q : Nat} {v : α} (h : lookupKey l q = some v) :
    (q, v) ∈ l := by
  induction l with
  | nil => simp [lookupKey] at h
  | cons p rest ih =>
    obtain ⟨k, u⟩ := p
    simp only [lookupKey] at h
    split at h
    · next hk => cases h; simp [hk]
    · exact List.mem_cons_of_mem _ (ih h)

theorem lookupKey_of_mem {l : List (Nat × α)} (hl : KeysRising l) {p : Nat × α} (hp : p ∈ l) :
    lookupKey l p.1 = some p.2 := by
  induction l with
  | nil => cases hp
  | cons a rest ih =>
    obtain ⟨k, u⟩ := a
    simp only [lookupKey]
    rcases List.mem_cons.mp hp with rfl | hp
    · simp
    · have := List.rel_of_pairwise_cons hl hp
      rw [if_neg (by simp only at this; omega), ih hl.of_cons hp]

theorem mem_insertKey {l : List (Nat × α)} {q : Nat} {v : α} {p : Nat × α}
    (h : p ∈ insertKey l q v) : p = (q, v) ∨ p ∈ l := by
  induction l with
  | nil => simpa [insertKey] using h
  | cons a rest ih =>
    obtain ⟨k, u⟩ := a
    simp only [insertKey] at h
    split at h
    · simpa using h
    · split at h
      · rcases List.mem_cons.mp h with h | h
        · exact .inl h
        · exact .inr (List.mem_cons_of_mem _ h)
      · rcases List.mem_cons.mp h with h | h
        · exact .inr (by simp [h])
        · exact (ih h).imp id (List.mem_cons_of_mem _)

theorem mem_eraseKey {l : List (Nat × α)} {q : Nat} {p : Nat × α} (h : p ∈ eraseKey l q) :
    p ∈ l := by
  induction l with
  | nil => simp [eraseKey] at h
  | cons a rest ih =>
    obtain ⟨k, u⟩ := a
    simp only [eraseKey] at h
    split at h
    · exact List.mem_cons_of_mem _ (ih h)
    · rcases List.mem_cons.mp h with h | h
      · simp [h]
      · exact List.mem_cons_of_mem _ (ih h)

/-- An insert keeps the keys rising. -/
theorem keysRising_insertKey {l : List (Nat × α)} (hl : KeysRising l) (q : Nat) (v : α) :
    KeysRising (insertKey l q v) := by
  induction l with
  | nil => simp [Machine.insertKey]
  | cons a rest ih =>
    obtain ⟨k, u⟩ := a
    have hk := List.pairwise_cons.mp hl
    simp only [Machine.insertKey]
    split
    · next h =>
      refine List.pairwise_cons.mpr ⟨?_, hl⟩
      intro p hp
      rcases List.mem_cons.mp hp with rfl | hp
      · exact h
      · exact Nat.lt_trans h (hk.1 p hp)
    · split
      · next h => exact List.pairwise_cons.mpr ⟨fun p hp => h ▸ hk.1 p hp, hk.2⟩
      · refine List.pairwise_cons.mpr ⟨?_, ih hk.2⟩
        intro p hp
        rcases mem_insertKey hp with rfl | hp
        · simp only; omega
        · exact hk.1 p hp

/-- An erase keeps the keys rising. -/
theorem keysRising_eraseKey {l : List (Nat × α)} (hl : KeysRising l) (q : Nat) :
    KeysRising (eraseKey l q) := by
  induction l with
  | nil => simp [Machine.eraseKey]
  | cons a rest ih =>
    obtain ⟨k, u⟩ := a
    have hk := List.pairwise_cons.mp hl
    simp only [Machine.eraseKey]
    split
    · exact ih hk.2
    · exact List.pairwise_cons.mpr ⟨fun p hp => hk.1 p (mem_eraseKey hp), ih hk.2⟩

theorem eraseKey_of_free {l : List (Nat × α)} {q : Nat} (h : lookupKey l q = none) :
    eraseKey l q = l := by
  induction l with
  | nil => rfl
  | cons a rest ih =>
    obtain ⟨k, u⟩ := a
    simp only [lookupKey] at h
    split at h
    · cases h
    · next hk => simp [eraseKey, hk, ih h]

/-! ### The first gap -/

theorem le_firstGap (l : List (Nat × α)) (k : Nat) : k ≤ firstGap k l := by
  induction l generalizing k with
  | nil => simp [firstGap]
  | cons a rest ih =>
    obtain ⟨h, u⟩ := a
    simp only [firstGap]
    split
    · exact ih k
    · split
      · exact Nat.le_of_succ_le (ih (k + 1))
      · exact Nat.le_refl k

/-- The first gap is no key. -/
theorem lookupKey_firstGap {l : List (Nat × α)} (hl : KeysRising l) (k : Nat) :
    lookupKey l (firstGap k l) = none := by
  induction l generalizing k with
  | nil => rfl
  | cons a rest ih =>
    obtain ⟨h, u⟩ := a
    have hk := List.pairwise_cons.mp hl
    simp only [firstGap]
    split
    · next hlt =>
      have := le_firstGap rest k
      rw [lookupKey, if_neg (by omega)]
      exact ih hk.2 k
    · split
      · next heq =>
        have := le_firstGap rest (k + 1)
        rw [lookupKey, if_neg (by omega)]
        exact ih hk.2 (k + 1)
      · next h1 h2 =>
        cases hv : lookupKey ((h, u) :: rest) k with
        | none => rfl
        | some v =>
          rcases List.mem_cons.mp (lookupKey_mem hv) with he | hm
          · cases he; exact absurd rfl h2
          · have := hk.1 _ hm
            simp only at this
            omega

/-- Every number from the start up to the first gap is a key. -/
theorem lookupKey_of_lt_firstGap {l : List (Nat × α)} (hl : KeysRising l) {k j : Nat}
    (hk : k ≤ j) (hj : j < firstGap k l) : (lookupKey l j).isSome := by
  induction l generalizing k with
  | nil => simp only [firstGap] at hj; omega
  | cons a rest ih =>
    obtain ⟨h, u⟩ := a
    have hp := List.pairwise_cons.mp hl
    simp only [firstGap] at hj
    simp only [lookupKey]
    split
    · rfl
    · next hne =>
      split at hj
      · exact ih hp.2 hk hj
      · split at hj
        · exact ih hp.2 (by omega) hj
        · omega

end Keys

/-! ### One array -/

/-- Read after write, one array. -/
theorem WordArray.cell_write (a : WordArray) (o p : Nat) (v : Word) :
    (a.write o v).cell p = if p = o then v else a.cell p := by
  simp only [WordArray.write, WordArray.cell]
  by_cases hv : v = unlistedWord
  · simp only [hv, if_true, lookupKey_eraseKey]
    split <;> simp
  · simp only [hv, if_false, lookupKey_insertKey]
    split <;> simp

@[simp] theorem WordArray.write_length (a : WordArray) (o : Nat) (v : Word) :
    (a.write o v).length = a.length := rfl

@[simp] theorem WordArray.zeros_length (n : Nat) : (WordArray.zeros n).length = n := rfl

@[simp] theorem WordArray.words_length (a : WordArray) : a.words.length = a.length := by
  simp [WordArray.words]

theorem WordArray.getElem?_words (a : WordArray) (o : Nat) : a.words[o]? = a.word? o := by
  simp only [WordArray.words, WordArray.word?, List.getElem?_map]
  by_cases h : o < a.length
  · simp [h]
  · simp [h]

/-- A write replaces one word of the sequence. -/
theorem WordArray.words_write (a : WordArray) (o : Nat) (v : Word) :
    (a.write o v).words = a.words.set o v := by
  apply List.ext_getElem
  · simp
  · intro i h1 h2
    have hi : i < a.length := by simpa using h1
    simp only [WordArray.words, List.getElem_map, List.getElem_range, WordArray.cell_write,
      List.getElem_set]
    by_cases h : i = o
    · simp [h]
    · simp [h, Ne.symm h]

theorem WordArray.words_zeros (n : Nat) : (WordArray.zeros n).words = List.replicate n 0#32 := by
  apply List.ext_getElem <;> simp [WordArray.words, WordArray.cell, WordArray.zeros, lookupKey,
    unlistedWord]

theorem lookupKey_cellsFrom_lt (ws : List Word) {o p : Nat} (h : p < o) :
    lookupKey (cellsFrom o ws) p = none := by
  induction ws generalizing o with
  | nil => rfl
  | cons v rest ih =>
    simp only [cellsFrom]
    split
    · exact ih (by omega)
    · rw [lookupKey, if_neg (by omega)]
      exact ih (by omega)

theorem lookupKey_cellsFrom (ws : List Word) (o i : Nat) :
    (lookupKey (cellsFrom o ws) (o + i)).getD unlistedWord = ws[i]?.getD unlistedWord := by
  induction ws generalizing o i with
  | nil => rfl
  | cons v rest ih =>
    simp only [cellsFrom]
    cases i with
    | zero =>
      split
      · next h => simp [lookupKey_cellsFrom_lt rest (Nat.lt_succ_self o), h]
      · simp [lookupKey]
    | succ i =>
      have hi : o + (i + 1) = (o + 1) + i := by omega
      split
      · rw [hi, ih]; simp
      · rw [lookupKey, if_neg (by omega), hi, ih]; simp

/-- The array built from a sequence of words stands for that sequence. -/
theorem WordArray.words_ofWords (ws : List Word) : (WordArray.ofWords ws).words = ws := by
  apply List.ext_getElem
  · simp [WordArray.ofWords]
  · intro i h1 h2
    have := lookupKey_cellsFrom ws 0 i
    simp only [Nat.zero_add] at this
    simp [WordArray.words, WordArray.cell, WordArray.ofWords, this, h2]

theorem mem_cellsFrom {ws : List Word} {o : Nat} {p : Nat × Word} (hp : p ∈ cellsFrom o ws) :
    o ≤ p.1 ∧ p.1 < o + ws.length ∧ p.2 ≠ unlistedWord := by
  induction ws generalizing o with
  | nil => simp [cellsFrom] at hp
  | cons v rest ih =>
    simp only [cellsFrom] at hp
    split at hp
    · have := ih hp
      simp only [List.length_cons]
      exact ⟨by omega, by omega, this.2.2⟩
    · next hv =>
      rcases List.mem_cons.mp hp with rfl | hp
      · exact ⟨Nat.le_refl _, by simp, hv⟩
      · have := ih hp
        simp only [List.length_cons]
        exact ⟨by omega, by omega, this.2.2⟩

theorem keysRising_cellsFrom (ws : List Word) (o : Nat) : KeysRising (cellsFrom o ws) := by
  induction ws generalizing o with
  | nil => simp [cellsFrom]
  | cons v rest ih =>
    simp only [cellsFrom]
    split
    · exact ih (o + 1)
    · refine List.pairwise_cons.mpr ⟨?_, ih (o + 1)⟩
      intro p hp
      have := (mem_cellsFrom hp).1
      simp only
      omega

theorem WordArray.wf_zeros {n : Nat} (h : n ≤ wordMax) : (WordArray.zeros n).wf :=
  ⟨List.Pairwise.nil, by simp [WordArray.zeros], h⟩

theorem WordArray.wf_ofWords {ws : List Word} (h : ws.length ≤ wordMax) :
    (WordArray.ofWords ws).wf := by
  refine ⟨keysRising_cellsFrom ws 0, ?_, h⟩
  intro p hp
  have := mem_cellsFrom hp
  exact ⟨by simpa [WordArray.ofWords] using this.2.1, this.2.2⟩

/-- A write within the array keeps its canonical form. -/
theorem WordArray.wf_write {a : WordArray} (ha : a.wf) {o : Nat} (ho : o < a.length) (v : Word) :
    (a.write o v).wf := by
  obtain ⟨h1, h2, h3⟩ := ha
  by_cases hv : v = unlistedWord
  · refine ⟨?_, ?_, h3⟩
    · simpa [WordArray.write, hv] using keysRising_eraseKey h1 o
    · intro p hp
      simp only [WordArray.write, hv, if_true] at hp
      exact h2 p (mem_eraseKey hp)
  · refine ⟨?_, ?_, h3⟩
    · simpa [WordArray.write, hv] using keysRising_insertKey h1 o v
    · intro p hp
      simp only [WordArray.write, hv, if_false] at hp
      rcases mem_insertKey hp with rfl | hp
      · exact ⟨ho, hv⟩
      · exact h2 p hp

/-! ### The heap -/

theorem Memory.word?_eq (m : Memory) (h o : Nat) :
    m.word? h o = (m.array? h).bind fun ws => ws[o]? := by
  simp only [Memory.word?, Memory.array?]
  cases lookupKey m h with
  | none => rfl
  | some a => simp [WordArray.getElem?_words]

theorem Memory.length?_eq (m : Memory) (h : Nat) :
    m.length? h = (m.array? h).map List.length := by
  simp only [Memory.length?, Memory.array?]
  cases lookupKey m h <;> simp

theorem Memory.live_eq (m : Memory) (h : Nat) : m.live h = (m.array? h).isSome := by
  simp [Memory.live, Memory.array?]

theorem Memory.array?_insertKey (m : Memory) (q h : Nat) (a : WordArray) :
    Memory.array? (insertKey m q a) h = if h = q then some a.words else m.array? h := by
  simp only [Memory.array?, lookupKey_insertKey]
  split <;> rfl

theorem Memory.array?_eraseKey (m : Memory) (q h : Nat) :
    Memory.array? (eraseKey m q) h = if h = q then none else m.array? h := by
  simp only [Memory.array?, lookupKey_eraseKey]
  split <;> rfl

theorem Memory.wf_lookup {m : Memory} (hm : m.wf) {h : Nat} {a : WordArray}
    (ha : lookupKey m h = some a) : h ≤ wordMax ∧ a.wf :=
  hm.2 _ (lookupKey_mem ha)

/-- Listing a well-formed array keeps the heap's canonical form. -/
theorem Memory.wf_insertKey {m : Memory} (hm : m.wf) {h : Nat} {a : WordArray} (hh : h ≤ wordMax)
    (ha : a.wf) : Memory.wf (insertKey m h a) := by
  refine ⟨keysRising_insertKey hm.1 h a, ?_⟩
  intro p hp
  rcases mem_insertKey hp with rfl | hp
  · exact ⟨hh, ha⟩
  · exact hm.2 p hp

/-- Freeing a handle keeps the heap's canonical form. -/
theorem Memory.wf_eraseKey {m : Memory} (hm : m.wf) (h : Nat) : Memory.wf (eraseKey m h) :=
  ⟨keysRising_eraseKey hm.1 h, fun p hp => hm.2 p (mem_eraseKey hp)⟩

theorem Memory.one_le_firstFree (m : Memory) : 1 ≤ m.firstFree := le_firstGap m 1

/-- The smallest free handle is free. -/
theorem Memory.lookupKey_firstFree {m : Memory} (hm : m.wf) : lookupKey m m.firstFree = none :=
  lookupKey_firstGap hm.1 1

/-- Every smaller non-zero handle is live. -/
theorem Memory.live_of_lt_firstFree {m : Memory} (hm : m.wf) {h : Nat} (h1 : 1 ≤ h)
    (h2 : h < m.firstFree) : m.live h = true :=
  lookupKey_of_lt_firstGap hm.1 h1 h2

/-! ### Sums over the heap -/

theorem Memory.usedWords_insertKey_free {m : Memory} {h : Nat} (a : WordArray)
    (hf : lookupKey m h = none) :
    Memory.usedWords (Machine.insertKey m h a) = m.usedWords + a.length := by
  induction m with
  | nil => simp [Machine.insertKey, Memory.usedWords]
  | cons p rest ih =>
    obtain ⟨k, u⟩ := p
    simp only [lookupKey] at hf
    split at hf
    · cases hf
    · next hk =>
      simp only [Machine.insertKey]
      split
      · simp only [Memory.usedWords]; omega
      · rw [if_neg (Ne.symm hk)]
        have := ih hf
        simp only [Memory.usedWords]
        omega

theorem Memory.usedWords_insertKey_live {m : Memory} (hm : KeysRising m) {h : Nat}
    {b : WordArray} (a : WordArray) (hl : lookupKey m h = some b) :
    Memory.usedWords (Machine.insertKey m h a) + b.length = m.usedWords + a.length := by
  induction m with
  | nil => simp [lookupKey] at hl
  | cons p rest ih =>
    obtain ⟨k, u⟩ := p
    simp only [lookupKey] at hl
    split at hl
    · next hk =>
      cases hl
      subst hk
      simp only [Machine.insertKey, Nat.lt_irrefl, if_false, if_true, Memory.usedWords]
      omega
    · next hk =>
      have hr := (List.pairwise_cons.mp hm).1 _ (lookupKey_mem hl)
      simp only at hr
      simp only [Machine.insertKey]
      rw [if_neg (by omega), if_neg (Ne.symm hk)]
      have := ih hm.of_cons hl
      simp only [Memory.usedWords]
      omega

theorem Memory.usedWords_eraseKey {m : Memory} (hm : KeysRising m) {h : Nat} {b : WordArray}
    (hl : lookupKey m h = some b) :
    Memory.usedWords (Machine.eraseKey m h) + b.length = m.usedWords := by
  induction m with
  | nil => simp [lookupKey] at hl
  | cons p rest ih =>
    obtain ⟨k, u⟩ := p
    have hp := List.pairwise_cons.mp hm
    simp only [lookupKey] at hl
    split at hl
    · next hk =>
      cases hl
      subst hk
      have hf : lookupKey rest k = none := by
        cases hv : lookupKey rest k with
        | none => rfl
        | some v =>
          have := hp.1 _ (lookupKey_mem hv)
          simp only at this
          omega
      simp only [Machine.eraseKey, if_true, eraseKey_of_free hf, Memory.usedWords]
      omega
    · next hk =>
      have := ih hp.2 hl
      simp only [Machine.eraseKey, hk, if_false, Memory.usedWords]
      omega

theorem Memory.liveHandles_insertKey_free {m : Memory} {h : Nat} (a : WordArray) (h0 : h ≠ 0)
    (hf : lookupKey m h = none) :
    Memory.liveHandles (Machine.insertKey m h a) = m.liveHandles + 1 := by
  induction m with
  | nil => simp [Machine.insertKey, Memory.liveHandles, h0]
  | cons p rest ih =>
    obtain ⟨k, u⟩ := p
    simp only [lookupKey] at hf
    split at hf
    · cases hf
    · next hk =>
      simp only [Machine.insertKey]
      split
      · simp only [Memory.liveHandles, h0, if_false]; omega
      · rw [if_neg (Ne.symm hk)]
        have := ih hf
        simp only [Memory.liveHandles]
        omega

theorem Memory.liveHandles_insertKey_live {m : Memory} (hm : KeysRising m) {h : Nat}
    {b : WordArray} (a : WordArray) (hl : lookupKey m h = some b) :
    Memory.liveHandles (Machine.insertKey m h a) = m.liveHandles := by
  induction m with
  | nil => simp [lookupKey] at hl
  | cons p rest ih =>
    obtain ⟨k, u⟩ := p
    simp only [lookupKey] at hl
    split at hl
    · next hk =>
      subst hk
      simp [Machine.insertKey, Memory.liveHandles]
    · next hk =>
      have hr := (List.pairwise_cons.mp hm).1 _ (lookupKey_mem hl)
      simp only at hr
      simp only [Machine.insertKey]
      rw [if_neg (by omega), if_neg (Ne.symm hk)]
      simp only [Memory.liveHandles, ih hm.of_cons hl]

theorem Memory.liveHandles_eraseKey_le (m : Memory) (h : Nat) :
    Memory.liveHandles (Machine.eraseKey m h) ≤ m.liveHandles := by
  induction m with
  | nil => simp [Machine.eraseKey]
  | cons p rest ih =>
    obtain ⟨k, u⟩ := p
    simp only [Machine.eraseKey]
    split
    · exact Nat.le_trans ih (by simp [Memory.liveHandles])
    · simp only [Memory.liveHandles]; omega

end Sys2Proof.Machine
end

