-- ==== Sys2Proof/Laws/State.lean ====
section
/-!
SUPPORT. One lemma per field per update of the state, so that no later proof unfolds a record update.
-/

namespace Sys2Proof.Machine

variable (s : State)

/-! ### setReg -/

@[simp] theorem State.setReg_pc (r : Reg) (v : Word) : (s.setReg r v).pc = s.pc := rfl
@[simp] theorem State.setReg_heap (r : Reg) (v : Word) : (s.setReg r v).heap = s.heap := rfl
@[simp] theorem State.setReg_outq (r : Reg) (v : Word) : (s.setReg r v).outq = s.outq := rfl
@[simp] theorem State.setReg_state (r : Reg) (v : Word) : (s.setReg r v).state = s.state := rfl
@[simp] theorem State.setReg_hostIn (r : Reg) (v : Word) : (s.setReg r v).hostIn = s.hostIn := rfl
@[simp] theorem State.setReg_config (r : Reg) (v : Word) : (s.setReg r v).config = s.config := rfl

@[simp] theorem State.reg_setReg_self (r : Reg) (v : Word) : (s.setReg r v).reg r = v := by
  simp [State.reg, State.setReg]

theorem State.reg_setReg_ne {r q : Reg} (v : Word) (h : q ≠ r) : (s.setReg r v).reg q = s.reg q := by
  simp [State.reg, State.setReg, Fin.val_inj, Ne.symm h]

/-- What a register reads as after one is written. -/
theorem State.reg_setReg (r q : Reg) (v : Word) :
    (s.setReg r v).reg q = if q = r then v else s.reg q := by
  split
  · next h => subst h; simp
  · next h => exact s.reg_setReg_ne v h

/-! ### setPc, advance -/

@[simp] theorem State.setPc_pc (t : Word) : (s.setPc t).pc = t := rfl
@[simp] theorem State.setPc_reg (t : Word) (r : Reg) : (s.setPc t).reg r = s.reg r := rfl
@[simp] theorem State.setPc_x (t : Word) : (s.setPc t).x = s.x := rfl
@[simp] theorem State.setPc_heap (t : Word) : (s.setPc t).heap = s.heap := rfl
@[simp] theorem State.setPc_outq (t : Word) : (s.setPc t).outq = s.outq := rfl
@[simp] theorem State.setPc_state (t : Word) : (s.setPc t).state = s.state := rfl
@[simp] theorem State.setPc_hostIn (t : Word) : (s.setPc t).hostIn = s.hostIn := rfl
@[simp] theorem State.setPc_config (t : Word) : (s.setPc t).config = s.config := rfl

@[simp] theorem State.advance_pc : s.advance.pc = s.pc + 1#32 := rfl
@[simp] theorem State.advance_reg (r : Reg) : s.advance.reg r = s.reg r := rfl
@[simp] theorem State.advance_x : s.advance.x = s.x := rfl
@[simp] theorem State.advance_heap : s.advance.heap = s.heap := rfl
@[simp] theorem State.advance_outq : s.advance.outq = s.outq := rfl
@[simp] theorem State.advance_state : s.advance.state = s.state := rfl
@[simp] theorem State.advance_hostIn : s.advance.hostIn = s.hostIn := rfl
@[simp] theorem State.advance_config : s.advance.config = s.config := rfl

/-! ### setState, fail -/

@[simp] theorem State.setState_state (v : RunState) : (s.setState v).state = v := rfl
@[simp] theorem State.setState_reg (v : RunState) (r : Reg) : (s.setState v).reg r = s.reg r := rfl
@[simp] theorem State.setState_x (v : RunState) : (s.setState v).x = s.x := rfl
@[simp] theorem State.setState_pc (v : RunState) : (s.setState v).pc = s.pc := rfl
@[simp] theorem State.setState_heap (v : RunState) : (s.setState v).heap = s.heap := rfl
@[simp] theorem State.setState_outq (v : RunState) : (s.setState v).outq = s.outq := rfl
@[simp] theorem State.setState_hostIn (v : RunState) : (s.setState v).hostIn = s.hostIn := rfl
@[simp] theorem State.setState_config (v : RunState) : (s.setState v).config = s.config := rfl

@[simp] theorem State.fail_state (r : FailReason) : (s.fail r).state = .failed r := rfl
@[simp] theorem State.fail_reg (r : FailReason) (q : Reg) : (s.fail r).reg q = s.reg q := rfl
@[simp] theorem State.fail_x (r : FailReason) : (s.fail r).x = s.x := rfl
@[simp] theorem State.fail_pc (r : FailReason) : (s.fail r).pc = s.pc := rfl
@[simp] theorem State.fail_heap (r : FailReason) : (s.fail r).heap = s.heap := rfl
@[simp] theorem State.fail_outq (r : FailReason) : (s.fail r).outq = s.outq := rfl
@[simp] theorem State.fail_hostIn (r : FailReason) : (s.fail r).hostIn = s.hostIn := rfl
@[simp] theorem State.fail_config (r : FailReason) : (s.fail r).config = s.config := rfl

/-! ### setHeap -/

@[simp] theorem State.setHeap_heap (m : Memory) : (s.setHeap m).heap = m := rfl
@[simp] theorem State.setHeap_reg (m : Memory) (r : Reg) : (s.setHeap m).reg r = s.reg r := rfl
@[simp] theorem State.setHeap_x (m : Memory) : (s.setHeap m).x = s.x := rfl
@[simp] theorem State.setHeap_pc (m : Memory) : (s.setHeap m).pc = s.pc := rfl
@[simp] theorem State.setHeap_outq (m : Memory) : (s.setHeap m).outq = s.outq := rfl
@[simp] theorem State.setHeap_state (m : Memory) : (s.setHeap m).state = s.state := rfl
@[simp] theorem State.setHeap_hostIn (m : Memory) : (s.setHeap m).hostIn = s.hostIn := rfl
@[simp] theorem State.setHeap_config (m : Memory) : (s.setHeap m).config = s.config := rfl

/-! ### appendOut -/

@[simp] theorem State.appendOut_outq (b : Byte) : (s.appendOut b).outq = s.outq ++ [b] := rfl
@[simp] theorem State.appendOut_reg (b : Byte) (r : Reg) : (s.appendOut b).reg r = s.reg r := rfl
@[simp] theorem State.appendOut_x (b : Byte) : (s.appendOut b).x = s.x := rfl
@[simp] theorem State.appendOut_pc (b : Byte) : (s.appendOut b).pc = s.pc := rfl
@[simp] theorem State.appendOut_heap (b : Byte) : (s.appendOut b).heap = s.heap := rfl
@[simp] theorem State.appendOut_state (b : Byte) : (s.appendOut b).state = s.state := rfl
@[simp] theorem State.appendOut_hostIn (b : Byte) : (s.appendOut b).hostIn = s.hostIn := rfl
@[simp] theorem State.appendOut_config (b : Byte) : (s.appendOut b).config = s.config := rfl

/-! ### writeBack -/

@[simp] theorem State.writeBack_pc (r : Reg) (v : Word) : (s.writeBack r v).pc = s.pc + 1#32 := rfl
@[simp] theorem State.writeBack_heap (r : Reg) (v : Word) : (s.writeBack r v).heap = s.heap := rfl
@[simp] theorem State.writeBack_outq (r : Reg) (v : Word) : (s.writeBack r v).outq = s.outq := rfl
@[simp] theorem State.writeBack_state (r : Reg) (v : Word) : (s.writeBack r v).state = s.state := rfl
@[simp] theorem State.writeBack_hostIn (r : Reg) (v : Word) : (s.writeBack r v).hostIn = s.hostIn := rfl
@[simp] theorem State.writeBack_config (r : Reg) (v : Word) : (s.writeBack r v).config = s.config := rfl

@[simp] theorem State.reg_writeBack_self (r : Reg) (v : Word) : (s.writeBack r v).reg r = v := by
  simp [State.writeBack]

theorem State.reg_writeBack_ne {r q : Reg} (v : Word) (h : q ≠ r) :
    (s.writeBack r v).reg q = s.reg q := by
  simp [State.writeBack, s.reg_setReg_ne v h]

/-- What a register reads as after a result is written back. -/
theorem State.reg_writeBack (r q : Reg) (v : Word) :
    (s.writeBack r v).reg q = if q = r then v else s.reg q := by
  simp [State.writeBack, State.reg_setReg]

/-! ### resume -/

@[simp] theorem State.resume_pc (c : Reg) (i : HostInput) : (s.resume c i).pc = s.pc + 1#32 := rfl
@[simp] theorem State.resume_heap (c : Reg) (i : HostInput) : (s.resume c i).heap = s.heap := rfl
@[simp] theorem State.resume_outq (c : Reg) (i : HostInput) : (s.resume c i).outq = s.outq := rfl
@[simp] theorem State.resume_state (c : Reg) (i : HostInput) : (s.resume c i).state = .idle := rfl
@[simp] theorem State.resume_hostIn (c : Reg) (i : HostInput) : (s.resume c i).hostIn = s.hostIn := rfl
@[simp] theorem State.resume_config (c : Reg) (i : HostInput) : (s.resume c i).config = s.config := rfl

/-- What a register reads as after a resumption. -/
theorem State.reg_resume (c q : Reg) (i : HostInput) :
    (s.resume c i).reg q = if q = c then inputValue i else s.reg q := by
  simp [State.resume, State.reg_writeBack]

/-! ### States are equal when their fields are -/

/-- Register files are equal when every register reads the same. -/
theorem State.x_ext {s t : State} (h : ∀ r, t.reg r = s.reg r) : t.x = s.x := by
  apply Vector.ext
  intro i hi
  exact h ⟨i, hi⟩

end Sys2Proof.Machine
end

