-- ==== Sys2Proof/Laws/Ops.lean ====
section
/-!
SUPPORT. One lemma per shared operation that says once everything it can do, and that each keeps the
heap's canonical form.
-/

namespace Sys2Proof.Machine

/-- Everything `attempt` can answer. -/
theorem State.attempt_cases {α : Type} {s : State} {res : Except FailReason α} {k : α → State}
    {t : State} (h : s.attempt res k = .next t) :
    (∃ v, res = .ok v ∧ t = k v) ∨ (∃ r, res = .error r ∧ t = s.fail r) := by
  cases res with
  | ok v => exact .inl ⟨v, rfl, by simpa [State.attempt] using h.symm⟩
  | error r => exact .inr ⟨r, rfl, by simpa [State.attempt] using h.symm⟩

/-- `attempt` always answers a next state. -/
theorem State.attempt_next {α : Type} (s : State) (res : Except FailReason α) (k : α → State) :
    ∃ t, s.attempt res k = .next t := by
  cases res <;> exact ⟨_, rfl⟩

/-- What it is to be within a capacity. -/
theorem withinLimit_iff {limit : Option Nat} {n : Nat} :
    withinLimit limit n = true ↔ ∀ cap, limit = some cap → n ≤ cap := by
  cases limit <;> simp [withinLimit]

theorem fitsCapacity_iff {c : Config} {n : Nat} :
    fitsCapacity c n = true ↔ ∀ cap, c.heapCapacityWords = some cap → n ≤ cap := withinLimit_iff

theorem fitsOutput_iff {c : Config} {n : Nat} :
    fitsOutput c n = true ↔ ∀ cap, c.outqCapacity = some cap → n ≤ cap := withinLimit_iff

theorem withinLimit_mono {limit : Option Nat} {m n : Nat} (hmn : m ≤ n)
    (h : withinLimit limit n = true) : withinLimit limit m = true :=
  withinLimit_iff.2 fun cap hc => Nat.le_trans hmn (withinLimit_iff.1 h cap hc)

/-- Where the queue is unbounded, every amount of pending output is within the capacity. -/
theorem State.withinOutputCapacity_of_unbounded {s : State} (h : s.config.outqCapacity = none) :
    s.withinOutputCapacity :=
  withinLimit_iff.2 fun _ hc => by rw [h] at hc; cases hc

/-- MemRead: the word of a live handle's array at an offset below the length, else OutOfBoundsAccess. -/
theorem State.memRead_eq (s : State) (h o : Word) :
    s.memRead h o =
      match (s.heap.array? h.toNat).bind fun ws => ws[o.toNat]? with
      | some v => .ok v
      | none => .error .outOfBoundsAccess := by
  rw [← Memory.word?_eq]
  exact rfl

theorem State.memRead_ok {s : State} {h o v : Word} (hv : s.memRead h o = .ok v) :
    s.heap.word? h.toNat o.toNat = some v := by
  simp only [State.memRead] at hv
  split at hv
  · next w hw => cases hv; exact hw
  · cases hv

theorem State.memRead_error {s : State} {h o : Word} {r : FailReason}
    (hr : s.memRead h o = .error r) :
    r = .outOfBoundsAccess ∧ s.heap.word? h.toNat o.toNat = none := by
  simp only [State.memRead] at hr
  split at hr
  · cases hr
  · next hw => cases hr; exact ⟨rfl, hw⟩

/-- Everything MemWrite can do. -/
theorem State.memWrite_cases (s : State) (h o v : Word) :
    (∃ a, lookupKey s.heap h.toNat = some a ∧ o.toNat < a.length ∧
      s.memWrite h o v = .ok (s.setHeap (insertKey s.heap h.toNat (a.write o.toNat v)))) ∨
    ((∀ a, lookupKey s.heap h.toNat = some a → a.length ≤ o.toNat) ∧
      s.memWrite h o v = .error .outOfBoundsAccess) := by
  simp only [State.memWrite]
  cases ha : lookupKey s.heap h.toNat with
  | none => exact .inr ⟨by simp, rfl⟩
  | some a =>
    by_cases ho : o.toNat < a.length
    · exact .inl ⟨a, rfl, ho, by simp [ho]⟩
    · refine .inr ⟨?_, by simp [ho]⟩
      intro b hb
      cases hb
      omega

/-- Everything Allocate can do. -/
theorem State.allocate_cases (s : State) (n : Word) :
    (fitsCapacity s.config (n.toNat + s.heap.usedWords) = true ∧
      handleAvailable s.config s.heap = true ∧
      s.allocate n = .ok (BitVec.ofNat 32 s.heap.firstFree,
        s.setHeap (insertKey s.heap s.heap.firstFree (WordArray.zeros n.toNat)))) ∨
    ((fitsCapacity s.config (n.toNat + s.heap.usedWords) = false ∨
      handleAvailable s.config s.heap = false) ∧
      s.allocate n = .error .resourceExhausted) := by
  simp only [State.allocate]
  cases fitsCapacity s.config (n.toNat + s.heap.usedWords) <;>
    cases handleAvailable s.config s.heap <;> simp

/-- Everything Free can do. -/
theorem State.free_cases (s : State) (h : Word) :
    (h ≠ 0#32 ∧ (∃ a, lookupKey s.heap h.toNat = some a) ∧
      s.free h = .ok (s.setHeap (eraseKey s.heap h.toNat))) ∨
    ((h = 0#32 ∨ lookupKey s.heap h.toNat = none) ∧ s.free h = .error .invalidAbandon) := by
  by_cases h0 : h = 0#32
  · exact .inr ⟨.inl h0, by simp [State.free, h0]⟩
  · rcases Option.eq_none_or_eq_some (lookupKey s.heap h.toNat) with ha | ⟨a, ha⟩
    · exact .inr ⟨.inr ha, by simp [State.free, h0, Memory.live, ha]⟩
    · exact .inl ⟨h0, ⟨a, ha⟩, by simp [State.free, h0, Memory.live, ha]⟩

/-- Whether the copy LOADPROG makes fits (20_memory.md R59), as R59 writes it but for the side of its
subtraction. -/
theorem State.replaceProgram_cases (s : State) (h : Word) :
    (∃ a, lookupKey s.heap h.toNat = some a ∧
      (∀ cap, s.config.heapCapacityWords = some cap →
        a.length + s.heap.usedWords ≤ cap + s.heap.programLength) ∧
      s.replaceProgram h = .ok (s.setHeap (insertKey s.heap 0 a))) ∨
    (lookupKey s.heap h.toNat = none ∧ s.replaceProgram h = .error .outOfBoundsAccess) ∨
    (∃ a cap, lookupKey s.heap h.toNat = some a ∧ s.config.heapCapacityWords = some cap ∧
      cap + s.heap.programLength < a.length + s.heap.usedWords ∧
      s.replaceProgram h = .error .resourceExhausted) := by
  simp only [State.replaceProgram]
  cases ha : lookupKey s.heap h.toNat with
  | none => simp
  | some a =>
    cases hc : s.config.heapCapacityWords with
    | none => simp
    | some cap =>
      by_cases hlt : cap + s.heap.programLength < a.length + s.heap.usedWords
      · exact .inr (.inr ⟨a, cap, rfl, rfl, hlt, by simp [hlt]⟩)
      · refine .inl ⟨a, rfl, ?_, by simp [hlt]⟩
        intro c hc'
        cases hc'
        omega

/-! ### The canonical form is kept -/

theorem Memory.live_insertKey (m : Memory) (q h : Nat) (a : WordArray) :
    Memory.live (insertKey m q a) h = (decide (h = q) || m.live h) := by
  simp only [Memory.live, lookupKey_insertKey]
  split <;> simp [*]

theorem Memory.live_eraseKey (m : Memory) (q h : Nat) :
    Memory.live (eraseKey m q) h = (!decide (h = q) && m.live h) := by
  simp only [Memory.live, lookupKey_eraseKey]
  split <;> simp [*]

theorem toNat_le_wordMax (w : Word) : w.toNat ≤ wordMax := by
  have := w.isLt
  simp only [wordMax]
  omega

theorem State.memWrite_heap_wf {s t : State} {h o v : Word} (hs : s.heap.wf)
    (ht : s.memWrite h o v = .ok t) : t.heap.wf := by
  rcases s.memWrite_cases h o v with ⟨a, ha, ho, he⟩ | ⟨-, he⟩
  · rw [he] at ht
    cases ht
    exact Memory.wf_insertKey hs (toNat_le_wordMax h)
      (WordArray.wf_write (Memory.wf_lookup hs ha).2 ho v)
  · rw [he] at ht; cases ht

theorem State.allocate_heap_wf {s : State} {n : Word} {p : Word × State} (hs : s.heap.wf)
    (ht : s.allocate n = .ok p) : p.2.heap.wf := by
  rcases s.allocate_cases n with ⟨-, hav, he⟩ | ⟨-, he⟩
  · rw [he] at ht
    cases ht
    simp only [handleAvailable, Bool.and_eq_true, decide_eq_true_eq] at hav
    exact Memory.wf_insertKey hs hav.1 (WordArray.wf_zeros (toNat_le_wordMax n))
  · rw [he] at ht; cases ht

theorem State.free_heap_wf {s t : State} {h : Word} (hs : s.heap.wf) (ht : s.free h = .ok t) :
    t.heap.wf := by
  rcases s.free_cases h with ⟨-, -, he⟩ | ⟨-, he⟩
  · rw [he] at ht; cases ht; exact Memory.wf_eraseKey hs _
  · rw [he] at ht; cases ht

theorem State.replaceProgram_heap_wf {s t : State} {h : Word} (hs : s.heap.wf)
    (ht : s.replaceProgram h = .ok t) : t.heap.wf := by
  rcases s.replaceProgram_cases h with ⟨a, ha, -, he⟩ | ⟨-, he⟩ | ⟨a, cap, -, -, -, he⟩
  · rw [he] at ht; cases ht; exact Memory.wf_insertKey hs (Nat.zero_le _) (Memory.wf_lookup hs ha).2
  · rw [he] at ht; cases ht
  · rw [he] at ht; cases ht

theorem State.placeInstruction_heap_wf {s : State} (hs : s.heap.wf) (hpc : s.pc.toNat < wordMax)
    (w : Word) : (placeInstruction s w).heap.wf := by
  simp only [placeInstruction, State.setState_heap, State.setHeap_heap]
  refine Memory.wf_insertKey hs (Nat.zero_le _) (WordArray.wf_write ?_ ?_ w)
  · cases ha : lookupKey s.heap 0 with
    | none =>
      refine ⟨List.Pairwise.nil, by simp [WordArray.zeros], ?_⟩
      simp only [Option.getD_none, WordArray.zeros_length]
      omega
    | some a =>
      obtain ⟨h1, h2, h3⟩ := (Memory.wf_lookup hs ha).2
      refine ⟨h1, fun p hp => ⟨?_, (h2 p hp).2⟩, ?_⟩
      · exact Nat.lt_of_lt_of_le (h2 p hp).1 (Nat.le_max_left _ _)
      · simp only [Option.getD_some]
        omega
  · simp only
    omega

/-- The reset state's heap is in canonical form. -/
theorem State.reset_heap_wf : State.reset.heap.wf := by decide

/-- The reset state is the machine of the empty image (70_reset_and_hazards.md R253). -/
theorem create_empty : create Config.unbounded [] = .next State.reset := by
  simp [create, fitsCapacity, withinLimit, Config.unbounded, State.fresh, imageWords, WordArray.ofWords, cellsFrom,
    State.reset]

end Sys2Proof.Machine
end

