-- ==== Sys2Proof/Laws/Exec.lean ====
section
/-!
SUPPORT. What an instruction can do, said once: every next state of exec is one of the effects below.
Statements about all instructions are proved by cases on it, without unfolding a meaning.
-/

namespace Sys2Proof.Machine

/-- The effects of the instructions: `ExecEffect i s t` when `i` may take `s` to `t`. Guards that only
choose between a result and a failure are kept where the result depends on them. -/
inductive ExecEffect : Instr → State → State → Prop where
  /-- A result written to the listed destination register, and pc advanced. -/
  | result (i : Instr) (s : State) (r : Reg) (v : Word) (hd : i.dest = some r) :
      ExecEffect i s (s.writeBack r v)
  /-- CMOV with a condition of 0. -/
  | skip (a b c : Reg) (s : State) (h : s.reg c = 0#32) : ExecEffect (.cmov a b c) s s.advance
  /-- The exception. -/
  | fails (i : Instr) (s : State) (r : FailReason) : ExecEffect i s (s.fail r)
  | stored (a b c : Reg) (s : State) (x : WordArray) (hx : lookupKey s.heap (s.reg a).toNat = some x)
      (ho : (s.reg b).toNat < x.length) :
      ExecEffect (.amend a b c) s
        (s.setHeap (insertKey s.heap (s.reg a).toNat (x.write (s.reg b).toNat (s.reg c)))).advance
  | halted (s : State) : ExecEffect .halt s (s.setState .halted)
  | allocated (b c : Reg) (s : State)
      (hf : fitsCapacity s.config ((s.reg c).toNat + s.heap.usedWords) = true)
      (hh : handleAvailable s.config s.heap = true) :
      ExecEffect (.alloc b c) s
        ((s.setHeap (insertKey s.heap s.heap.firstFree (WordArray.zeros (s.reg c).toNat))).writeBack b
          (BitVec.ofNat 32 s.heap.firstFree))
  | freed (c : Reg) (s : State) (x : WordArray) (h0 : s.reg c ≠ 0#32)
      (hx : lookupKey s.heap (s.reg c).toNat = some x) :
      ExecEffect (.abandon c) s (s.setHeap (eraseKey s.heap (s.reg c).toNat)).advance
  | output (c : Reg) (s : State) (b : Byte) (hb : b.toNat = (s.reg c).toNat) :
      ExecEffect (.out c) s (s.appendOut b).advance
  | waits (c : Reg) (s : State) : ExecEffect (.inp c) s (s.setState (.waiting c))
  | jumped (b c : Reg) (s : State) (h0 : s.reg b = 0#32) :
      ExecEffect (.loadprog b c) s (s.setPc (s.reg c))
  | replaced (b c : Reg) (s : State) (x : WordArray) (h0 : s.reg b ≠ 0#32)
      (hx : lookupKey s.heap (s.reg b).toNat = some x)
      (hc : ∀ cap, s.config.heapCapacityWords = some cap →
        x.length + s.heap.usedWords ≤ cap + s.heap.programLength) :
      ExecEffect (.loadprog b c) s ((s.setHeap (insertKey s.heap 0 x)).setPc (s.reg c))

/-- Everything exec can do. -/
theorem exec_effect {i : Instr} {s t : State} (h : exec i s = .next t) : ExecEffect i s t := by
  cases i with
  | cmov a b c =>
    simp only [exec, execCmov] at h
    split at h
    · cases h; exact .result _ _ _ _ rfl
    · next hc => cases h; exact .skip _ _ _ _ (by simpa [nonZero] using hc)
  | index a b c =>
    rcases State.attempt_cases h with ⟨v, -, rfl⟩ | ⟨r, -, rfl⟩
    · exact .result _ _ _ _ rfl
    · exact .fails ..
  | amend a b c =>
    rcases State.attempt_cases h with ⟨v, hv, rfl⟩ | ⟨r, -, rfl⟩
    · rcases s.memWrite_cases (s.reg a) (s.reg b) (s.reg c) with ⟨x, hx, ho, he⟩ | ⟨-, he⟩
      · rw [he] at hv; cases hv; exact .stored _ _ _ _ x hx ho
      · rw [he] at hv; cases hv
    · exact .fails ..
  | add a b c => cases h; exact .result _ _ _ _ rfl
  | mul a b c => cases h; exact .result _ _ _ _ rfl
  | div a b c =>
    rcases State.attempt_cases h with ⟨v, -, rfl⟩ | ⟨r, -, rfl⟩
    · exact .result _ _ _ _ rfl
    · exact .fails ..
  | nand a b c => cases h; exact .result _ _ _ _ rfl
  | halt => cases h; exact .halted _
  | alloc b c =>
    rcases State.attempt_cases h with ⟨v, hv, rfl⟩ | ⟨r, -, rfl⟩
    · rcases s.allocate_cases (s.reg c) with ⟨h1, h2, he⟩ | ⟨-, he⟩
      · rw [he] at hv; cases hv; exact .allocated _ _ _ h1 h2
      · rw [he] at hv; cases hv
    · exact .fails ..
  | abandon c =>
    rcases State.attempt_cases h with ⟨v, hv, rfl⟩ | ⟨r, -, rfl⟩
    · rcases s.free_cases (s.reg c) with ⟨h1, ⟨x, hx⟩, he⟩ | ⟨-, he⟩
      · rw [he] at hv; cases hv; exact .freed _ _ x h1 hx
      · rw [he] at hv; cases hv
    · exact .fails ..
  | out c =>
    rcases State.attempt_cases h with ⟨v, hv, rfl⟩ | ⟨r, -, rfl⟩
    · simp only [outputByte, srcOperand] at hv
      split at hv
      · cases hv
      · cases hv
        exact .output _ _ _ (by simp only [BitVec.toNat_ofNat]; omega)
    · exact .fails ..
  | inp c => cases h; exact .waits ..
  | loadprog b c =>
    simp only [exec, execLoadprog] at h
    split at h
    · next h0 => cases h; exact .jumped _ _ _ h0
    · next h0 =>
      rcases State.attempt_cases h with ⟨v, hv, rfl⟩ | ⟨r, -, rfl⟩
      · rcases s.replaceProgram_cases (s.reg b) with ⟨x, hx, hc, he⟩ | ⟨-, he⟩ | ⟨_, _, -, -, -, he⟩
        · rw [he] at hv; cases hv; exact .replaced _ _ _ x h0 hx hc
        · rw [he] at hv; cases hv
        · rw [he] at hv; cases hv
      · exact .fails ..
  | orth a imm => cases h; exact .result _ _ _ _ rfl
  | illegal14 => cases h; exact .fails ..
  | illegal15 => cases h; exact .fails ..

end Sys2Proof.Machine
end

