-- ==== Sys2Proof/Laws/PerInstr.lean ====
section
/-!
SUPPORT. What holds of every instruction as syntax: the top four bits of its encoding are its opcode
(30_encoding.md R90, R91, R99).
-/

namespace Sys2Proof.Laws

/-- The opcode field of the encoding of a well-formed instruction. -/
def EncodeOpcode.Statement (i : Instr) : Prop :=
  i.wellFormed = true → (encode i).toNat / 2 ^ 28 = i.opcode

/-- The opcode of a standard-format word. -/
theorem encodeStd_opcode (op : Nat) (a b c : Reg) (h : op < 16) :
    (encodeStd op a b c).toNat / 2 ^ 28 = op := by
  have := a.isLt
  have := b.isLt
  have := c.isLt
  simp only [encodeStd, BitVec.toNat_ofNat]
  omega

theorem EncodeOpcode.cmov (a b c : Reg) : EncodeOpcode.Statement (.cmov a b c) :=
  fun _ => encodeStd_opcode 0 a b c (by omega)
theorem EncodeOpcode.index (a b c : Reg) : EncodeOpcode.Statement (.index a b c) :=
  fun _ => encodeStd_opcode 1 a b c (by omega)
theorem EncodeOpcode.amend (a b c : Reg) : EncodeOpcode.Statement (.amend a b c) :=
  fun _ => encodeStd_opcode 2 a b c (by omega)
theorem EncodeOpcode.add (a b c : Reg) : EncodeOpcode.Statement (.add a b c) :=
  fun _ => encodeStd_opcode 3 a b c (by omega)
theorem EncodeOpcode.mul (a b c : Reg) : EncodeOpcode.Statement (.mul a b c) :=
  fun _ => encodeStd_opcode 4 a b c (by omega)
theorem EncodeOpcode.div (a b c : Reg) : EncodeOpcode.Statement (.div a b c) :=
  fun _ => encodeStd_opcode 5 a b c (by omega)
theorem EncodeOpcode.nand (a b c : Reg) : EncodeOpcode.Statement (.nand a b c) :=
  fun _ => encodeStd_opcode 6 a b c (by omega)
theorem EncodeOpcode.halt : EncodeOpcode.Statement .halt := fun _ => by decide
theorem EncodeOpcode.alloc (b c : Reg) : EncodeOpcode.Statement (.alloc b c) :=
  fun _ => encodeStd_opcode 8 0 b c (by omega)
theorem EncodeOpcode.abandon (c : Reg) : EncodeOpcode.Statement (.abandon c) :=
  fun _ => encodeStd_opcode 9 0 0 c (by omega)
theorem EncodeOpcode.out (c : Reg) : EncodeOpcode.Statement (.out c) :=
  fun _ => encodeStd_opcode 10 0 0 c (by omega)
theorem EncodeOpcode.inp (c : Reg) : EncodeOpcode.Statement (.inp c) :=
  fun _ => encodeStd_opcode 11 0 0 c (by omega)
theorem EncodeOpcode.loadprog (b c : Reg) : EncodeOpcode.Statement (.loadprog b c) :=
  fun _ => encodeStd_opcode 12 0 b c (by omega)
theorem EncodeOpcode.orth (a : Reg) (imm : Word) : EncodeOpcode.Statement (.orth a imm) := by
  intro h
  have ha := a.isLt
  have h : imm.toNat ≤ 33554431 := of_decide_eq_true h
  simp only [encode, Instr.opcode, BitVec.toNat_ofNat]
  omega
theorem EncodeOpcode.illegal14 : EncodeOpcode.Statement .illegal14 := fun _ => by decide
theorem EncodeOpcode.illegal15 : EncodeOpcode.Statement .illegal15 := fun _ => by decide

end Sys2Proof.Laws
end

