-- ==== Sys2Proof/Tests/Slice0.lean ====
section
/-!
SUPPORT. The author's own tests: decoding against words written out from the spec's encodings, one step
against the vectors of 95_test_vectors.md, and, for every statement with hypotheses, a concrete state and
operands that meet them.
-/

namespace Sys2Proof.Machine.Tests

/-! ### Well-formedness -/

theorem test_wellFormed_refuses_wide_immediate : (Instr.orth 0 0x02000000#32).wellFormed = false := by
  decide

theorem test_wellFormed_accepts_largest_immediate : (Instr.orth 7 0x01FFFFFF#32).wellFormed = true := by
  decide

/-! ### Decoding: one word per constructor, written out from 30_encoding.md R90, R91, R96: opcode, 19 unused
bits, A, B, C; or opcode, A', 25 bits of immediate -/

theorem test_decode_cmov : decode 0b00000000000000000000000000001010#32 = .cmov 0 1 2 := by decide
theorem test_decode_index : decode 0b00010000000000000000000101010011#32 = .index 5 2 3 := by decide
theorem test_decode_amend : decode 0b00100000000000000000000010011100#32 = .amend 2 3 4 := by decide
theorem test_decode_add : decode 0b00110000000000000000000010000001#32 = .add 2 0 1 := by decide
theorem test_decode_mul : decode 0b01000000000000000000000011001010#32 = .mul 3 1 2 := by decide
theorem test_decode_div : decode 0b01010000000000000000000010001000#32 = .div 2 1 0 := by decide
theorem test_decode_nand : decode 0b01100000000000000000000101000000#32 = .nand 5 0 0 := by decide
theorem test_decode_halt : decode 0b01110000000000000000000000000000#32 = .halt := by decide
theorem test_decode_alloc : decode 0b10000000000000000000000000010001#32 = .alloc 2 1 := by decide
theorem test_decode_abandon : decode 0b10010000000000000000000000000010#32 = .abandon 2 := by decide
theorem test_decode_out : decode 0b10100000000000000000000000000010#32 = .out 2 := by decide
theorem test_decode_inp : decode 0b10110000000000000000000000000011#32 = .inp 3 := by decide
theorem test_decode_loadprog : decode 0b11000000000000000000000000010011#32 = .loadprog 2 3 := by decide
theorem test_decode_orth : decode 0b11011001001000110100010101100111#32 = .orth 4 0x01234567#32 := by
  decide
theorem test_decode_illegal14 : decode 0b11100000000000000000000000000000#32 = .illegal14 := by decide
theorem test_decode_illegal15 : decode 0b11110000000000000000000000000000#32 = .illegal15 := by decide

/-- Unused bits (95_test_vectors.md 2.1: 0x3FFFFFFF, 0x1234567F, 0x7ABCDEF0). -/
theorem test_decode_ignores_unused_bits :
    decode 0x3FFFFFFF#32 = .add 7 7 7 ∧ decode 0x1234567F#32 = .index 1 7 7 ∧
    decode 0x7ABCDEF0#32 = .halt := by decide

/-- Bit 24 of an ORTH word is immediate, not register (95_test_vectors.md 2.1: 0xD1000000). -/
theorem test_decode_orth_bit24 : decode 0xD1000000#32 = .orth 0 0x01000000#32 := by decide

/-- 30_encoding.md R99's examples. -/
theorem test_encode_examples :
    encode (.orth 0 5#32) = 0xD0000005#32 ∧ encode (.add 2 0 1) = 0x30000081#32 := by decide

/-- The image bytes D0 00 00 05 are the word 0xD0000005 (95_test_vectors.md P1). -/
theorem test_decodeBytes : decodeBytes [0xD0#8, 0x00#8, 0x00#8, 0x05#8, 0x70#8] =
    .ok (.orth 0 5#32, [0x70#8]) := by rfl

theorem test_decodeTableWord : decodeTableWord 32 0xDFFFFFFF = some (.orth 7 0x01FFFFFF#32) := by decide

/-! ### One step -/

/-- The start of 95_test_vectors.md 2.4: array 0 of two words, array 1 of four zeros, with given registers. -/
def small (regs : List Word) : State :=
  { State.reset with
    x := Vector.ofFn fun i : Fin 8 => regs[i.val]?.getD 0#32
    heap := [(0, WordArray.ofWords [0xD0000005#32, 0x70000000#32]), (1, WordArray.zeros 4)] }

/-- The state after one step that runs a word at the finger. -/
def after (w : Word) (s : State) : Option State :=
  match step (s.withFetchWord 32 w.toNat) with
  | .next t => some t
  | .fault _ => none
  | .refused _ => none

/-- 41_move_array.md R150's example. -/
theorem test_cmov_moves : (after 0x0000000A#32 (small [0, 7, 1])).map (fun t => (t.reg 0, t.pc)) =
    some (7#32, 1#32) := by decide

/-- `CMOV r2, r4, r2` with x[2] = 0 (95_test_vectors.md 2.3). -/
theorem test_cmov_condition_zero : (after 0x000000A2#32 (small [0, 0, 0, 0, 9])).map
    (fun t => (t.reg 2, t.pc)) = some (0#32, 1#32) := by decide

/-- INDEX at the last offset of the program array reads the program (95_test_vectors.md 2.4). -/
theorem test_index_reads_program : (after 0x10000153#32 (small [0, 0, 0, 1])).map
    (fun t => (t.reg 5, t.state)) = some (0x70000000#32, .idle) := by decide

/-- INDEX at offset = length fails and leaves pc (95_test_vectors.md 2.4). -/
theorem test_index_past_end : (after 0x10000153#32 (small [0, 0, 1, 4])).map
    (fun t => (t.state, t.pc)) = some (.failed .outOfBoundsAccess, 0#32) := by decide

/-- AMEND of word 2 of array 1 (95_test_vectors.md 2.4). -/
theorem test_amend_stores : (after 0x2000009C#32 (small [0, 0, 1, 2, 0xCAFEBABE])).map
    (fun t => t.heap.array? 1) = some (some [0, 0, 0xCAFEBABE#32, 0]) := by decide

/-- AMEND of a free handle fails (95_test_vectors.md 2.4). -/
theorem test_amend_free_handle : (after 0x2000009C#32 (small [0, 0, 2, 0, 7])).map State.state =
    some (.failed .outOfBoundsAccess) := by decide

/-- 0xFFFFFFFF + 2 = 1 (95_test_vectors.md L1-1). -/
theorem test_add_wraps : (after 0x30000081#32 (small [0xFFFFFFFF, 2])).map (·.reg 2) = some 1#32 := by
  decide

/-- `ADD r1, r1, r1` of 0x80000001 (95_test_vectors.md 2.2). -/
theorem test_add_same_register : (after 0x30000049#32 (small [0, 0x80000001])).map (·.reg 1) =
    some 2#32 := by decide

/-- 0x12345678 * 0x9ABCDEF0 (95_test_vectors.md 2.2). -/
theorem test_mul_low_half : (after 0x400000CA#32 (small [0, 0x12345678, 0x9ABCDEF0])).map (·.reg 3) =
    some 0x242D2080#32 := by decide

/-- 0x80000000 // 0xFFFFFFFF = 0: unsigned (95_test_vectors.md 2.2). -/
theorem test_div_unsigned : (after 0x500000CA#32 (small [0, 0x80000000, 0xFFFFFFFF, 5])).map (·.reg 3) =
    some 0#32 := by decide

/-- Division by 0 writes nothing (95_test_vectors.md L1-2, P6). -/
theorem test_div_by_zero : (after 0x50000088#32 (small [0, 7, 6])).map
    (fun t => (t.state, t.reg 2, t.pc)) = some (.failed .divisionByZero, 6#32, 0#32) := by decide

/-- NAND(0xF0F0F0F0, 0xFF00FF00) = 0x0FFF0FFF (95_test_vectors.md 2.2). -/
theorem test_nand : (after 0x600000CA#32 (small [0, 0xF0F0F0F0, 0xFF00FF00])).map (·.reg 3) =
    some 0x0FFF0FFF#32 := by decide

/-- HALT keeps pc (43_control.md R180). -/
theorem test_halt : (after 0x7ABCDEF0#32 { small [] with pc := 1#32 }).map (fun t => (t.state, t.pc)) =
    some (.halted, 1#32) := by decide

/-- ALLOC issues the smallest free handle, and the new array is zero (95_test_vectors.md 2.5). -/
theorem test_alloc_smallest : (after 0x80000011#32 (small [0, 3])).map
    (fun t => (t.reg 2, t.heap.array? 2)) = some (2#32, some [0, 0, 0]) := by decide

/-- With capacity 10 and 6 words live, ALLOC of 5 fails (95_test_vectors.md 2.5, capacity 10). -/
theorem test_alloc_exhausted : (after 0x80000011#32 { small [0, 5] with config := ⟨some 10, wordMax, none⟩ }).map
    State.state = some (.failed .resourceExhausted) := by decide

/-- ABANDON of the live handle 1 (95_test_vectors.md 2.5). -/
theorem test_abandon_frees : (after 0x90000002#32 (small [0, 0, 1])).map
    (fun t => (t.heap.live 1, t.heap.live 0, t.pc)) = some (false, true, 1#32) := by decide

/-- ABANDON of handle 0 (95_test_vectors.md 2.5). -/
theorem test_abandon_zero : (after 0x90000002#32 (small [])).map State.state =
    some (.failed .invalidAbandon) := by decide

/-- OUT of 255 (95_test_vectors.md 2.6). -/
theorem test_out_largest : (after 0xA0000002#32 (small [0, 0, 255])).map State.outq = some [255#8] := by
  decide

/-- OUT of 256 fails, with no truncation (95_test_vectors.md 2.6). -/
theorem test_out_above : (after 0xA0000002#32 (small [0, 0, 256])).map
    (fun t => (t.state, t.outq, t.pc)) = some (.failed .outputOutOfRange, [], 0#32) := by decide

/-- IN waits with pc unchanged (95_test_vectors.md 2.6). -/
theorem test_in_waits : (after 0xB0000005#32 { small [] with pc := 7#32 }).map
    (fun t => (t.state, t.pc)) = some (.waiting 5, 7#32) := by decide

/-- The machine of 95_test_vectors.md 2.6: `IN r5` at pc = 7, waiting, with one scheduled input. -/
def waitingSmall (i : HostInput) : State :=
  { small [] with
    pc := 7#32
    heap := [(0, WordArray.ofWords (List.replicate 7 0 ++ [0xB0000005#32]))]
    state := .waiting 5
    hostIn := [i] }

/-- End-of-input gives all ones and advances pc (95_test_vectors.md 2.6). -/
theorem test_resume_end_of_input :
    (match step (waitingSmall .endOfInput) with
      | .next t => decide (t.reg 5 = 0xFFFFFFFF#32 ∧ t.pc = 8#32 ∧ t.state = .idle ∧ t.hostIn = [])
      | _ => false) = true := by decide

/-- LOADPROG of array 1: array 0 has its length and words, array 1 stays (95_test_vectors.md 2.7). -/
theorem test_loadprog_replaces : (after 0xC0000013#32 (small [0, 0, 1, 3])).map
    (fun t => (t.heap.array? 0, t.heap.array? 1, t.pc)) =
      some (some [0, 0, 0, 0], some [0, 0, 0, 0], 3#32) := by decide

/-- LOADPROG of a free handle fails with pc and array 0 unchanged (95_test_vectors.md 2.7). -/
theorem test_loadprog_free_handle : (after 0xC0000013#32 (small [0, 0, 2])).map
    (fun t => (t.state, t.pc, t.heap.length? 0)) =
      some (.failed .outOfBoundsAccess, 0#32, some 2) := by decide

/-- The largest immediate (95_test_vectors.md 2.8). -/
theorem test_orth_largest : (after 0xDFFFFFFF#32 (small [])).map (fun t => (t.reg 7, t.pc)) =
    some (0x01FFFFFF#32, 1#32) := by decide

/-- 0xEFFFFFFF and 0xF0000000 fail with IllegalOpcode (95_test_vectors.md 2.1). -/
theorem test_illegal_words :
    (after 0xEFFFFFFF#32 (small [])).map State.state = some (.failed .illegalOpcode) ∧
    (after 0xF0000000#32 (small [])).map State.state = some (.failed .illegalOpcode) := by decide

/-- create on the image of P1's first two words, and the refusal of five bytes (95_test_vectors.md 2.9,
P1). -/
theorem test_create :
    (match create Config.unbounded [0xD0#8, 0, 0, 0x05#8, 0xD2#8, 0, 0, 0x03#8] with
      | .next t => decide (t.heap.array? 0 = some [0xD0000005#32, 0xD2000003#32])
      | _ => false) = true ∧
    create Config.unbounded [0, 0, 0, 0, 0] = .refused .imageNotWholeWords := ⟨by decide, rfl⟩

/-! ### Witnesses: every statement with hypotheses has a state and operands that meet them -/

/-- A handle that is not live is out of bounds at every offset. -/
theorem outOfBounds_of_free {s : State} {h o : Word} (hf : s.heap.array? h.toNat = none) :
    OutOfBounds s h o := by
  intro ws hws
  rw [hf] at hws
  cases hws

/-- An offset at or past the length is out of bounds. -/
theorem outOfBounds_of_length {s : State} {h o : Word} {ws : List Word}
    (hw : s.heap.array? h.toNat = some ws) (ho : ws.length ≤ o.toNat) : OutOfBounds s h o := by
  intro vs hvs
  rw [hw] at hvs
  cases hvs
  exact ho

/-- The state in which the word at the finger is the given one. -/
def running (w : Word) (regs : List Word) : State := (small regs).withFetchWord 32 w.toNat

theorem witness_DecodeByOpcodeNumber : ∀ n : Fin 16,
    (encodeStd n 7 7 7).toNat / 2 ^ 28 = n.val ∧ (7 : Reg).val = (encodeStd n 7 7 7).toNat / 2 ^ 6 % 8 ∧
    (7 : Reg).val = (encodeStd n 7 7 7).toNat / 2 ^ 3 % 8 ∧ (7 : Reg).val = (encodeStd n 7 7 7).toNat % 8 ∧
    (0 : Reg).val = (encodeStd n 7 7 7).toNat / 2 ^ 25 % 8 ∧
    (0x1FF#32).toNat = (encodeStd n 7 7 7).toNat % 2 ^ 25 := by decide

theorem witness_DecodeOfEncodeIsIdentity : (Instr.orth 7 0x01FFFFFF#32).wellFormed = true := by decide

theorem witness_UnusedBitsAreIgnored : 0x3FFFFFFF#32 ≠ 0x300001FF#32 ∧
    0x3FFFFFFF#32 &&& usedMask ((0x3FFFFFFF#32).toNat / 2 ^ 28) =
      0x300001FF#32 &&& usedMask ((0x3FFFFFFF#32).toNat / 2 ^ 28) := by decide

theorem witness_IllegalWordsFailWithIllegalOpcode :
    ((running 0xE0000000#32 []).state = .idle ∧ (running 0xE0000000#32 []).fetch = .ok 0xE0000000#32 ∧
      (0xE0000000#32).toNat / 2 ^ 28 = 14) ∧
    ((running 0xFFFFFFFF#32 []).state = .idle ∧ (running 0xFFFFFFFF#32 []).fetch = .ok 0xFFFFFFFF#32 ∧
      (0xFFFFFFFF#32).toNat / 2 ^ 28 = 15) := ⟨⟨rfl, rfl, by decide⟩, rfl, rfl, by decide⟩

theorem witness_BytesDecodeBigEndian : ([1#8, 2#8, 3#8]).length < 4 ∧ ([] : List Byte).length < 4 := by
  decide

/-- The encoding clause of every instruction's statement, at the words with every other bit set. -/
theorem witness_encodings : ∀ n : Fin 14,
    BitVec.ofNat 32 (n.val * 2 ^ 28 + 0x0FFFFFFF) &&& 0xF0000000#32 = BitVec.ofNat 32 (n.val * 2 ^ 28) := by
  decide

theorem witness_IndexLoadsOrFailsOutOfBounds :
    ((small [0, 0, 1, 3]).heap.array? ((small [0, 0, 1, 3]).reg 2).toNat = some [0, 0, 0, 0] ∧
      [0, 0, 0, 0#32][((small [0, 0, 1, 3]).reg 3).toNat]? = some 0#32) ∧
    OutOfBounds (small [0, 0, 1, 4]) ((small [0, 0, 1, 4]).reg 2) ((small [0, 0, 1, 4]).reg 3) ∧
    OutOfBounds (small [0, 0, 2, 0]) ((small [0, 0, 2, 0]).reg 2) ((small [0, 0, 2, 0]).reg 3) :=
  ⟨by decide, outOfBounds_of_length (ws := [0, 0, 0, 0]) (by decide) (by decide),
    outOfBounds_of_free (by decide)⟩

theorem witness_AmendStoresOneWordOrFails :
    ((small [0, 0, 1, 3]).heap.array? ((small [0, 0, 1, 3]).reg 2).toNat = some [0, 0, 0, 0] ∧
      ((small [0, 0, 1, 3]).reg 3).toNat < [0, 0, 0, 0#32].length) ∧
    OutOfBounds (small [0, 0, 1, 4]) ((small [0, 0, 1, 4]).reg 2) ((small [0, 0, 1, 4]).reg 3) :=
  ⟨by decide, outOfBounds_of_length (ws := [0, 0, 0, 0]) (by decide) (by decide)⟩

theorem witness_DivQuotientOrDivisionByZero :
    (small [0, 7, 1]).reg 2 ≠ 0#32 ∧ (small [0, 7, 0]).reg 2 = 0#32 := by decide

theorem witness_HaltKeepsEverythingElse :
    (running 0x70000000#32 []).state = .idle ∧ (running 0x70000000#32 []).fetch = .ok 0x70000000#32 ∧
    decode 0x70000000#32 = .halt ∧ 1 ≤ 1 := ⟨rfl, rfl, by decide, Nat.le_refl 1⟩

/-- A state with a bounded heap: six words live. -/
def bounded (cap maxLive : Nat) (regs : List Word) : State :=
  { small regs with config := ⟨some cap, maxLive, none⟩ }

theorem exceeds_iff (s : State) (cap words : Nat) (h : s.config.heapCapacityWords = some cap) :
    ExceedsCapacity s words ↔ cap < words := by
  simp [ExceedsCapacity, h]

/-- Jump; a copy that just fits (4 + 6 - 2 words in 8); a free handle; a copy that does not fit in 7. -/
theorem witness_LoadprogReplacesProgramOrJumps :
    (small [0, 0, 0, 9]).reg 2 = 0#32 ∧
    ((bounded 8 1 [0, 0, 1]).reg 2 ≠ 0#32 ∧
      (bounded 8 1 [0, 0, 1]).heap.array? ((bounded 8 1 [0, 0, 1]).reg 2).toNat = some [0, 0, 0, 0] ∧
      (bounded 8 1 [0, 0, 1]).heap.array? 0 = some [0xD0000005#32, 0x70000000#32] ∧
      ¬ ExceedsCapacity (bounded 8 1 [0, 0, 1]) (4 + (bounded 8 1 [0, 0, 1]).heap.usedWords - 2)) ∧
    ((small [0, 0, 2]).reg 2 ≠ 0#32 ∧
      (small [0, 0, 2]).heap.array? ((small [0, 0, 2]).reg 2).toNat = none) ∧
    ((bounded 7 1 [0, 0, 1]).heap.array? ((bounded 7 1 [0, 0, 1]).reg 2).toNat = some [0, 0, 0, 0] ∧
      ExceedsCapacity (bounded 7 1 [0, 0, 1]) (4 + (bounded 7 1 [0, 0, 1]).heap.usedWords - 2)) :=
  ⟨by decide, ⟨by decide, by decide, by decide, by rw [exceeds_iff _ 8 _ rfl]; decide⟩, by decide,
    by decide, by rw [exceeds_iff _ 7 _ rfl]; decide⟩

theorem witness_JumpPastEndFailsAtNextFetch :
    (small [0, 2]).state = .idle ∧ (small [0, 2]).reg 0 = 0#32 ∧
    OutOfBounds (small [0, 2]) 0#32 ((small [0, 2]).reg 1) :=
  ⟨rfl, by decide, outOfBounds_of_length (ws := [0xD0000005#32, 0x70000000#32]) (by decide) (by decide)⟩

theorem witness_JumpToItselfNeverFails :
    (running 0xC0000001#32 []).state = .idle ∧ (running 0xC0000001#32 []).fetch = .ok 0xC0000001#32 ∧
    decode 0xC0000001#32 = .loadprog 0 1 ∧ (running 0xC0000001#32 []).reg 0 = 0#32 ∧
    (running 0xC0000001#32 []).reg 1 = (running 0xC0000001#32 []).pc :=
  ⟨rfl, rfl, by decide, by decide, by decide⟩

/-- Four words just fit beside six in ten, with one more handle allowed; five do not; and with one handle
allowed none is available. -/
theorem witness_AllocIssuesSmallestFreeHandle :
    (bounded 10 2 [0, 4]).heap.wf ∧
    ¬ ExceedsCapacity (bounded 10 2 [0, 4])
      (((bounded 10 2 [0, 4]).reg 1).toNat + (bounded 10 2 [0, 4]).heap.usedWords) ∧
    HandleFree (bounded 10 2 [0, 4]) ∧
    ExceedsCapacity (bounded 10 2 [0, 5])
      (((bounded 10 2 [0, 5]).reg 1).toNat + (bounded 10 2 [0, 5]).heap.usedWords) ∧
    ¬ HandleFree (bounded 10 1 [0, 0]) :=
  ⟨by decide, by rw [exceeds_iff _ 10 _ rfl]; decide, ⟨⟨2, by decide⟩, by decide⟩,
    by rw [exceeds_iff _ 10 _ rfl]; decide, fun h => absurd h.2 (by decide)⟩

theorem witness_AbandonFreesHandleOrFails :
    ((small [0, 0, 1]).reg 2 ≠ 0#32 ∧
      (small [0, 0, 1]).heap.array? ((small [0, 0, 1]).reg 2).toNat ≠ none) ∧
    (small [0, 0, 0]).reg 2 = 0#32 ∧
    (small [0, 0, 2]).heap.array? ((small [0, 0, 2]).reg 2).toNat = none := by decide

/-- The state after `ALLOC r2, r1` of three words. -/
def allocated : State :=
  ((small [0, 3]).setHeap (insertKey (small [0, 3]).heap 2 (WordArray.zeros 3))).writeBack 2 2#32

theorem witness_AbandonedHandleIsReissued :
    (small [0, 3]).heap.wf ∧ (small [0, 3]).state = .idle ∧ (2 : Reg) ≠ 1 ∧
    exec (.alloc 2 1) (small [0, 3]) = .next allocated ∧ allocated.state = .idle :=
  ⟨by decide, rfl, by decide, rfl, rfl⟩

theorem witness_OutAppendsByteOrFails :
    ((small [0, 0, 255]).reg 2).toNat ≤ 255 ∧ 255 < ((small [0, 0, 256]).reg 2).toNat := by decide

theorem witness_InEntersWaiting :
    (running 0xB0000003#32 []).state = .idle ∧ (running 0xB0000003#32 []).fetch = .ok 0xB0000003#32 ∧
    decode 0xB0000003#32 = .inp 3 ∧ 1 ≤ 1 := ⟨rfl, rfl, by decide, Nat.le_refl 1⟩

theorem witness_ResumptionCompletesInput :
    (waitingSmall .endOfInput).state = .waiting 5 ∧ (HostInput.byte 255#8 = .byte 255#8) := by decide

theorem witness_WaitingStepSuppliesNextInput :
    ((waitingSmall (.byte 0#8)).state = .waiting 5 ∧ (waitingSmall (.byte 0#8)).hostIn = [.byte 0#8]) ∧
    ({ waitingSmall .endOfInput with hostIn := [] } : State).state = .waiting 5 := by decide

theorem witness_InputThenOutputEchoes :
    (waitingSmall (.byte 65#8)).state = .waiting 5 ∧
    supplyInput (.byte 65#8) (waitingSmall (.byte 65#8)) =
      .next ((waitingSmall (.byte 65#8)).resume 5 (.byte 65#8)) ∧
    supplyInput .endOfInput (waitingSmall .endOfInput) =
      .next ((waitingSmall .endOfInput).resume 5 .endOfInput) := ⟨rfl, rfl, rfl⟩

theorem witness_StepRunsDecodedInstruction :
    (running 0x30000081#32 []).state = .idle ∧ (running 0x30000081#32 []).fetch = .ok 0x30000081#32 ∧
    decode 0x30000081#32 = .add 2 0 1 := ⟨rfl, rfl, by decide⟩

/-- The last word of array 0, and the offset just past it; the same states serve MemRead and MemWrite. -/
theorem witness_FetchReadsProgramOrFailsStep :
    ((small []).heap.array? 0 = some [0xD0000005#32, 0x70000000#32] ∧
      [0xD0000005#32, 0x70000000#32][({ small [] with pc := 1#32 } : State).pc.toNat]? =
        some 0x70000000#32) ∧
    ({ small [] with pc := 2#32 } : State).state = .idle ∧
    OutOfBounds { small [] with pc := 2#32 } 0#32 ({ small [] with pc := 2#32 } : State).pc :=
  ⟨by decide, rfl,
    outOfBounds_of_length (ws := [0xD0000005#32, 0x70000000#32]) (by decide) (by decide)⟩

/-- A success and a failure of exec, a resumption, and a fetch in a well-formed heap. -/
theorem witness_FingerUpdateRule :
    ((small [0, 1]).state = .idle ∧ exec (.add 2 1 1) (small [0, 1]) = .next ((small [0, 1]).writeBack 2 2#32) ∧
      ((small [0, 1]).writeBack 2 2#32).state = .idle) ∧
    (exec (.div 2 1 0) (small [0, 1]) = .next ((small [0, 1]).fail .divisionByZero) ∧
      ((small [0, 1]).fail .divisionByZero).state = .failed .divisionByZero) ∧
    ((waitingSmall .endOfInput).state = .waiting 5 ∧
      supplyInput .endOfInput (waitingSmall .endOfInput) =
        .next ((waitingSmall .endOfInput).resume 5 .endOfInput)) ∧
    ((small []).heap.wf ∧ (small []).fetch = .ok 0xD0000005#32) :=
  ⟨⟨rfl, rfl, rfl⟩, ⟨rfl, rfl⟩, ⟨rfl, rfl⟩, by decide, rfl⟩

theorem witness_OnlyListedRegisterIsWritten :
    exec (.add 2 1 1) (small [0, 1]) = .next ((small [0, 1]).writeBack 2 2#32) ∧
    (Instr.add 2 1 1).dest ≠ some 3 := ⟨rfl, by decide⟩

theorem witness_OnlyListedRegistersAreRead :
    (∀ r ∈ (Instr.add 2 1 1).sources,
      ({ small [0, 1] with x := (small [9, 1, 9, 9]).x } : State).reg r = (small [0, 1]).reg r) ∧
    exec (.add 2 1 1) (small [0, 1]) = .next ((small [0, 1]).writeBack 2 2#32) := ⟨by decide, rfl⟩

theorem witness_MeaningIgnoresPendingOutputAndInput :
    exec (.out 2) (small [0, 0, 8]) = .next ((small [0, 0, 8]).appendOut 8#8).advance := rfl

/-- One step from Idle that outputs: the premise `step s = next t` of the statements about steps. -/
theorem witness_OutputGrowsInExecutionOrder :
    step (running 0xA0000002#32 [0, 0, 8]) =
      .next ((running 0xA0000002#32 [0, 0, 8]).appendOut 8#8).advance := rfl

theorem witness_FailingStepChangesOnlyState :
    step (running 0x50000088#32 [0, 7]) = .next ((running 0x50000088#32 [0, 7]).fail .divisionByZero) ∧
    ((running 0x50000088#32 [0, 7]).fail .divisionByZero).state = .failed .divisionByZero := ⟨rfl, rfl⟩

/-- A failed fetch, and the failures of one row of the table for each reason but those: an illegal word, DIV
by 0, ABANDON of handle 0, OUT of 256, and ALLOC at a MAX_LIVE_HANDLES of 1 with handle 1 live. -/
theorem witness_CauseTableIsComplete :
    (({ small [] with pc := 2#32 } : State).wf ∧ ({ small [] with pc := 2#32 } : State).state = .idle ∧
      step { small [] with pc := 2#32 } =
        .next ({ small [] with pc := 2#32, state := .failed .outOfBoundsAccess } : State)) ∧
    ((running 0x50000088#32 [0, 7]).wf ∧ (running 0x50000088#32 [0, 7]).state = .idle ∧
      step (running 0x50000088#32 [0, 7]) =
        .next ((running 0x50000088#32 [0, 7]).fail .divisionByZero)) ∧
    step (running 0xE0000000#32 []) = .next ((running 0xE0000000#32 []).fail .illegalOpcode) ∧
    step (running 0x90000000#32 []) = .next ((running 0x90000000#32 []).fail .invalidAbandon) ∧
    step (running 0xA0000001#32 [0, 256]) =
      .next ((running 0xA0000001#32 [0, 256]).fail .outputOutOfRange) ∧
    (({ running 0x80000011#32 [0, 3] with config := { Config.unbounded with maxLiveHandles := 1 } } :
        State).wf ∧
      step { running 0x80000011#32 [0, 3] with config := { Config.unbounded with maxLiveHandles := 1 } } =
        .next { running 0x80000011#32 [0, 3] with
          config := { Config.unbounded with maxLiveHandles := 1 }
          state := .failed .resourceExhausted }) :=
  ⟨⟨⟨by decide, by decide, by decide⟩, rfl, rfl⟩, ⟨⟨by decide, by decide, by decide⟩, rfl, rfl⟩, rfl, rfl,
    rfl, ⟨by decide, by decide, by decide⟩, rfl⟩

theorem witness_StateMachineTransitions :
    (step (running 0x70000000#32 []) = .next ((running 0x70000000#32 []).setState .halted) ∧
      (running 0x70000000#32 []).state = .idle ∧
      (running 0x70000000#32 []).fetch = .ok 0x70000000#32) ∧
    (step (waitingSmall .endOfInput) =
        .next (({ waitingSmall .endOfInput with hostIn := [] } : State).resume 5 .endOfInput) ∧
      (waitingSmall .endOfInput).state = .waiting 5) ∧
    step ((small []).setState .halted) = .next ((small []).setState .halted) ∧
    step ((small []).fail .invalidAbandon) = .next ((small []).fail .invalidAbandon) :=
  ⟨⟨rfl, rfl, rfl⟩, ⟨rfl, rfl⟩, rfl, rfl⟩

theorem witness_TerminalStatesAreNeverLeft :
    ((small []).setState .halted).state = .halted ∧
    ∃ r, ((small []).fail .invalidAbandon).state = .failed r := ⟨rfl, _, rfl⟩

theorem witness_MemReadIsBoundsChecked :
    ((small []).heap.array? (1#32).toNat = some [0, 0, 0, 0] ∧ [0, 0, 0, 0#32][(3#32).toNat]? = some 0#32) ∧
    OutOfBounds (small []) 1#32 4#32 :=
  ⟨by decide, outOfBounds_of_length (ws := [0, 0, 0, 0]) (by decide) (by decide)⟩

theorem witness_MemWriteStoresOneWord :
    ((small []).heap.array? (1#32).toNat = some [0, 0, 0, 0] ∧ (3#32).toNat < [0, 0, 0, 0#32].length) ∧
    OutOfBounds (small []) 1#32 4#32 :=
  ⟨by decide, outOfBounds_of_length (ws := [0, 0, 0, 0]) (by decide) (by decide)⟩

/-- AMEND of the next word of the program; LOADPROG of array 1; an instruction that does neither. -/
theorem witness_FetchSeesEveryProgramWrite :
    ((small [0, 1, 7]).wf ∧ (small [0, 1, 7]).state = .idle ∧ (small [0, 1, 7]).reg 0 = 0#32 ∧
      (small [0, 1, 7]).reg 1 = (small [0, 1, 7]).pc + 1#32 ∧
      ∃ t, exec (.amend 0 1 2) (small [0, 1, 7]) = .next t ∧ t.state = .idle) ∧
    ((small [0, 0, 1]).reg 2 ≠ 0#32 ∧
      ∃ t, exec (.loadprog 2 0) (small [0, 0, 1]) = .next t ∧ t.state = .idle) ∧
    ∃ t, exec (.add 2 1 1) (small [0, 1]) = .next t ∧ t.state = .idle :=
  ⟨⟨⟨by decide, by decide, by decide⟩, rfl, by decide, by decide, _, rfl, rfl⟩, ⟨by decide, _, rfl, rfl⟩,
    _, rfl, rfl⟩

theorem witness_ArrayLengthsAreFixed :
    (small [0, 0, 1]).heap.wf ∧
    exec (.loadprog 2 0) (small [0, 0, 1]) =
      .next (((small [0, 0, 1]).setHeap
        (insertKey (small [0, 0, 1]).heap 0 (WordArray.zeros 4))).setPc 0#32) ∧
    (small [0, 0, 1]).heap.length? 0 = some 2 ∧
    Memory.length? (insertKey (small [0, 0, 1]).heap 0 (WordArray.zeros 4)) 0 = some 4 ∧ 4 ≠ 2 :=
  ⟨by decide, rfl, by decide, by decide, by decide⟩

theorem witness_EqualArraysMakeEqualHeaps :
    (small []).heap.wf ∧ Memory.wf (insertKey (small []).heap 1 (WordArray.ofWords [0, 0, 0, 0])) ∧
    ∀ h, (small []).heap.array? h =
      Memory.array? (insertKey (small []).heap 1 (WordArray.ofWords [0, 0, 0, 0])) h := by
  refine ⟨by decide, by decide, fun h => ?_⟩
  rw [Memory.array?_insertKey]
  split
  · next e => subst e; decide
  · rfl

/-- A step from a small machine that meets the three invariants. -/
theorem witness_StepKeepsWellFormedHeap :
    (running 0x80000011#32 [0, 3]).wf ∧ (running 0x80000011#32 [0, 3]).withinCapacity ∧
    (running 0x80000011#32 [0, 3]).waitingLatch ∧
    ∃ t, step (running 0x80000011#32 [0, 3]) = .next t ∧ t.reg 2 = 2#32 :=
  ⟨⟨by decide, by decide, by decide⟩, ⟨by decide, by decide⟩, (fun _ h => by cases h), _, rfl, by decide⟩

theorem witness_StepKeepsWithinCapacity :
    (running 0x80000011#32 [0, 3]).wf ∧ (running 0x80000011#32 [0, 3]).withinCapacity ∧
    ∃ t, step (running 0x80000011#32 [0, 3]) = .next t :=
  ⟨witness_StepKeepsWellFormedHeap.1, witness_StepKeepsWellFormedHeap.2.1, _, rfl⟩

/-- The step that takes an input. -/
theorem witness_ParametersNeverChange :
    ∃ t, step (waitingSmall .endOfInput) = .next t ∧
      (waitingSmall .endOfInput).hostIn = .endOfInput :: t.hostIn := ⟨_, rfl, rfl⟩

/-- Words that meet the match and mask of CMOV, ADD, MUL, NAND and ORTH; nothing else is assumed of these
instructions. -/
theorem witness_match_and_mask :
    0x0000000A#32 &&& 0xF0000000#32 = 0x00000000#32 ∧ 0x30000081#32 &&& 0xF0000000#32 = 0x30000000#32 ∧
    0x400000CA#32 &&& 0xF0000000#32 = 0x40000000#32 ∧ 0x60000140#32 &&& 0xF0000000#32 = 0x60000000#32 ∧
    0xD2000003#32 &&& 0xF0000000#32 = 0xD0000000#32 := by decide

/-- A waiting state that meets the latch, and the step out of it. -/
theorem witness_StepKeepsWaitingLatch :
    (waitingSmall .endOfInput).waitingLatch ∧ (waitingSmall .endOfInput).state = .waiting 5 ∧
    step (waitingSmall .endOfInput) =
      .next (({ waitingSmall .endOfInput with hostIn := [] } : State).resume 5 .endOfInput) := by
  refine ⟨fun c h => ⟨0xB0000005#32, rfl, ?_⟩, rfl, rfl⟩
  cases h
  decide

theorem witness_CreateLoadsBigEndianImage :
    ∃ s, create (Config.mk (some 1) wordMax none) [0xD0, 0, 0, 5] = .next s ∧
      s.heap.array? 0 = some [0xD0000005#32] :=
  ⟨_, rfl, by decide⟩

theorem witness_CreateGivesResetValues :
    ([0xD0, 0, 0, 5] : List Byte).length % 4 = 0 ∧ ([0xD0, 0, 0, 5] : List Byte).length / 4 ≤ wordMax ∧
    ¬ (∃ cap, (Config.mk (some 1) wordMax none).heapCapacityWords = some cap ∧
      cap < ([0xD0, 0, 0, 5] : List Byte).length / 4) := by
  refine ⟨by decide, by decide, ?_⟩
  rintro ⟨cap, h, hc⟩
  cases h
  exact absurd hc (by decide)

/-- Five bytes; a whole word that does not fit; an accepted image. An image of more than 2^32-1 words is not
written out: its length is all the clause reads. -/
theorem witness_CreateRefusesOrMeetsInvariants :
    ([0, 0, 0, 0, 0] : List Byte).length % 4 ≠ 0 ∧
    ((List.replicate (4 * (wordMax + 1)) (0 : Byte)).length % 4 = 0 ∧
      wordMax < (List.replicate (4 * (wordMax + 1)) (0 : Byte)).length / 4) ∧
    (([0, 0, 0, 0] : List Byte).length % 4 = 0 ∧ ([0, 0, 0, 0] : List Byte).length / 4 ≤ wordMax ∧
      (Config.mk (some 0) wordMax none).heapCapacityWords = some 0 ∧ 0 < ([0, 0, 0, 0] : List Byte).length / 4) ∧
    (Config.unbounded.maxLiveHandles ≤ wordMax ∧ create Config.unbounded [] = .next State.reset) :=
  ⟨by decide, by rw [List.length_replicate]; decide, by decide, by decide, create_empty⟩

/-- A run of one step that halts, from a machine with a byte pending. -/
theorem witness_RunEndsOutsideIdleWithAllOutput :
    RunEnds ({ running 0x70000000#32 [] with outq := [8#8] }) [8#8]
      { running 0x70000000#32 [] with state := .halted } ∧
    ((small []).setState .halted).state ≠ .idle := by
  refine ⟨⟨1, { running 0x70000000#32 [] with outq := [8#8], state := .halted }, rfl, ?_, rfl⟩, ?_⟩
  · simp
  · simp

/-- Two increments of one step each: OUT, then the fetched word after it, HALT. -/
theorem witness_RunInIncrementsIsOneRun :
    ∃ t u, runBounded 1 (running 0xA0000002#32 [0, 0, 8]) = .next ([8#8], t) ∧
      runBounded 1 t = .next ([], u) ∧ u.state = .halted := ⟨_, _, rfl, rfl, rfl⟩

theorem witness_HostCallsOutsideTheirState :
    (∀ c, (small []).state ≠ .waiting c) ∧ 1 ≤ 1 ∧ ((small []).setState .halted).state ≠ .idle := by
  refine ⟨fun c h => ?_, Nat.le_refl 1, fun h => ?_⟩
  · cases h
  · cases h

theorem witness_CloneBehavesAlike :
    (∃ t, runBounded 1 (running 0xA0000002#32 [0, 0, 8]) = .next ([8#8], t)) ∧
    ∃ t, supplyInput .endOfInput (waitingSmall .endOfInput) = .next t := ⟨⟨_, rfl⟩, _, rfl⟩

/-- The queue of two bytes, holding one: OUT fills it, ADD leaves it within, a third byte would not fit. -/
theorem witness_OutputStaysWithinCapacityWhileRoom :
    let q : Config := { Config.unbounded with outqCapacity := some 2 }
    (∃ t, step { running 0xA0000002#32 [0, 0, 8] with outq := [7#8], config := q } = .next t ∧
      t.outq = [7#8, 8#8] ∧ fitsOutput q 2 = true) ∧
    ((∃ t, step { running 0x30000081#32 [] with outq := [7#8], config := q } = .next t) ∧
      ({ running 0x30000081#32 [] with outq := [7#8], config := q } : State).withinOutputCapacity ∧
      ∀ w c, ({ running 0x30000081#32 [] with outq := [7#8], config := q } : State).fetch = .ok w →
        decode w ≠ .out c) ∧
    fitsOutput q 3 = false ∧ State.reset.config.outqCapacity = none := by
  refine ⟨⟨_, rfl, rfl, rfl⟩, ⟨⟨_, rfl⟩, rfl, fun w c h => ?_⟩, rfl, rfl⟩
  cases h
  exact nofun

end Sys2Proof.Machine.Tests
end

section
/-!
PROOFS, 20_memory.md. Bounds-checked reads and writes of one word, the fetch as the read of array 0 at the
finger, and which instructions change array 0. The lemmas speak of `Memory.array?`, the spec's view of the
heap; the instructions come in through `ExecEffect` alone.
-/

namespace Sys2Proof.Machine

/-! ### The spec's view of one array -/

theorem Memory.array?_eq_some_iff {m : Memory} {h : Nat} {ws : List Word} :
    m.array? h = some ws ↔ ∃ a, lookupKey m h = some a ∧ a.words = ws := by
  simp only [Memory.array?, Option.map_eq_some_iff]

theorem Memory.array?_of_lookupKey {m : Memory} {h : Nat} {a : WordArray}
    (ha : lookupKey m h = some a) : m.array? h = some a.words :=
  Memory.array?_eq_some_iff.2 ⟨a, ha, rfl⟩

/-- Listing the rewritten array sets one word of its own handle's array; other handles keep theirs. -/
theorem Memory.array?_insertKey_write (m : Memory) (q h o : Nat) (a : WordArray) (v : Word) :
    Memory.array? (insertKey m q (a.write o v)) h =
      if h = q then some (a.words.set o v) else m.array? h := by
  rw [Memory.array?_insertKey, WordArray.words_write]

/-! ### MemRead (R57) -/

/-- The check of R57 fails exactly where the heap has no word to read. -/
theorem outOfBounds_iff {s : State} {h o : Word} :
    OutOfBounds s h o ↔ s.heap.word? h.toNat o.toNat = none := by
  simp only [OutOfBounds, Memory.word?_eq, Option.bind_eq_none_iff, List.getElem?_eq_none_iff]

theorem State.memRead_of_getElem? {s : State} {h o v : Word} {ws : List Word}
    (hws : s.heap.array? h.toNat = some ws) (hv : ws[o.toNat]? = some v) :
    s.memRead h o = .ok v := by
  simp only [State.memRead_eq, hws, Option.bind_some, hv]

theorem State.memRead_of_outOfBounds {s : State} {h o : Word} (hb : OutOfBounds s h o) :
    s.memRead h o = .error .outOfBoundsAccess := by
  simp only [State.memRead, outOfBounds_iff.1 hb]

/-- What MemRead answers depends on the contents of the one array it reads. -/
theorem State.memRead_congr {s t : State} {h k : Word}
    (harr : t.heap.array? h.toNat = s.heap.array? k.toNat) (o : Word) :
    t.memRead h o = s.memRead k o := by
  simp only [State.memRead_eq, harr]

/-- A word that was just set reads back. -/
theorem State.memRead_of_set {t : State} {h o v : Word} {ws : List Word}
    (harr : t.heap.array? h.toNat = some (ws.set o.toNat v)) (ho : o.toNat < ws.length) :
    t.memRead h o = .ok v :=
  State.memRead_of_getElem? harr (List.getElem?_set_self ho)

/-! ### MemWrite (R58) -/

/-- Within bounds MemWrite changes the heap alone, and there only the array it writes. -/
theorem State.memWrite_of_lt {s : State} {h o : Word} {ws : List Word} (v : Word)
    (hws : s.heap.array? h.toNat = some ws) (ho : o.toNat < ws.length) :
    ∃ m : Memory, s.memWrite h o v = .ok (s.setHeap m) ∧
      m.array? h.toNat = some (ws.set o.toNat v) ∧
      ∀ k, k ≠ h.toNat → m.array? k = s.heap.array? k := by
  obtain ⟨a, ha, rfl⟩ := Memory.array?_eq_some_iff.1 hws
  rw [WordArray.words_length] at ho
  rcases s.memWrite_cases h o v with ⟨b, hb, -, he⟩ | ⟨hlen, -⟩
  · obtain rfl : a = b := Option.some.inj (ha.symm.trans hb)
    refine ⟨_, he, ?_, fun k hk => ?_⟩
    · rw [Memory.array?_insertKey_write, if_pos rfl]
    · rw [Memory.array?_insertKey_write, if_neg hk]
  · exact absurd (hlen a ha) (Nat.not_le.2 ho)

theorem State.memWrite_of_outOfBounds {s : State} {h o : Word} (v : Word)
    (hb : OutOfBounds s h o) : s.memWrite h o v = .error .outOfBoundsAccess := by
  rcases s.memWrite_cases h o v with ⟨a, ha, ho, -⟩ | ⟨-, he⟩
  · have hlen := hb a.words (Memory.array?_of_lookupKey ha)
    rw [WordArray.words_length] at hlen
    exact absurd hlen (Nat.not_le.2 ho)
  · exact he

/-! ### Fetch (R62) -/

theorem State.fetch_eq (s : State) : s.fetch = s.memRead 0#32 s.pc := rfl

/-- A failed fetch fails the step from Idle before anything is decoded (40_engine_cycle.md R122). -/
theorem step_of_fetch_error {s : State} {r : FailReason} (hi : s.state = .idle)
    (hf : s.fetch = .error r) : step s = .next (s.fail r) := by
  simp only [step, transition, hi, engineStep, hf]

/-! ### Which instructions change array 0 (R72) -/

/-- A handle other than 0 is another key of the heap than array 0's. -/
theorem zero_ne_toNat {w : Word} (h : w ≠ 0#32) : 0 ≠ w.toNat := (BitVec.toNat_ne.1 h).symm

/-- AMEND that does not fail: one word of array x[A] is set, at an offset within its length. -/
theorem exec_amend_idle {a b c : Reg} {s t : State} (h : exec (.amend a b c) s = .next t)
    (hi : t.state = .idle) :
    ∃ ws, s.heap.array? (s.reg a).toNat = some ws ∧ (s.reg b).toNat < ws.length ∧
      t.heap.array? (s.reg a).toNat = some (ws.set (s.reg b).toNat (s.reg c)) ∧
      t.pc = s.pc + 1#32 := by
  cases exec_effect h with
  | result _ _ _ _ hd => cases hd
  | fails => cases hi
  | stored _ _ _ _ x hx ho =>
    refine ⟨x.words, Memory.array?_of_lookupKey hx, by rwa [WordArray.words_length], ?_, rfl⟩
    rw [State.advance_heap, State.setHeap_heap, Memory.array?_insertKey_write, if_pos rfl]

/-- LOADPROG from a handle other than 0 that does not fail: array 0 becomes a copy of array x[B]. -/
theorem exec_loadprog_idle {b c : Reg} {s t : State} (h : exec (.loadprog b c) s = .next t)
    (hi : t.state = .idle) (hb : s.reg b ≠ 0#32) :
    t.heap.array? 0 = s.heap.array? (s.reg b).toNat ∧ t.pc = s.reg c := by
  cases exec_effect h with
  | result _ _ _ _ hd => cases hd
  | fails => cases hi
  | jumped _ _ _ h0 => exact absurd h0 hb
  | replaced _ _ _ x _ hx _ =>
    refine ⟨?_, rfl⟩
    rw [State.setPc_heap, State.setHeap_heap, Memory.array?_insertKey, if_pos rfl,
      Memory.array?_of_lookupKey hx]

/-- Only AMEND to handle 0 and LOADPROG from another handle change array 0: the new handle of ALLOC is at
least 1, and ABANDON frees no handle 0. -/
theorem ExecEffect.array?_zero {i : Instr} {s t : State} (h : ExecEffect i s t)
    (hamend : ∀ a b c, i = .amend a b c → s.reg a ≠ 0#32)
    (hload : ∀ b c, i = .loadprog b c → s.reg b = 0#32) :
    t.heap.array? 0 = s.heap.array? 0 := by
  cases h with
  | result | skip | fails | halted | output | waits | jumped => rfl
  | stored a b c =>
    rw [State.advance_heap, State.setHeap_heap, Memory.array?_insertKey_write,
      if_neg (zero_ne_toNat (hamend a b c rfl))]
  | allocated =>
    have hfree := s.heap.one_le_firstFree
    rw [State.writeBack_heap, State.setHeap_heap, Memory.array?_insertKey, if_neg (by omega)]
  | freed _ _ _ h0 _ =>
    rw [State.advance_heap, State.setHeap_heap, Memory.array?_eraseKey,
      if_neg (zero_ne_toNat h0)]
  | replaced b c _ _ h0 _ _ => exact absurd (hload b c rfl) h0

/-! ### The obligations -/

/-- Settles O42: the two sides of R57's check. -/
theorem memReadIsBoundsChecked : Obligations.MemReadIsBoundsChecked := by
  unfold Obligations.MemReadIsBoundsChecked
  exact fun _ _ _ =>
    ⟨fun _ _ => State.memRead_of_getElem?, State.memRead_of_outOfBounds⟩

/-- Settles O43: MemWrite answers the same state with another heap, which differs in one word. -/
theorem memWriteStoresOneWord : Obligations.MemWriteStoresOneWord := by
  unfold Obligations.MemWriteStoresOneWord
  intro s h o v
  refine ⟨fun ws hws ho => ?_, State.memWrite_of_outOfBounds v⟩
  obtain ⟨m, hwrite, hset, hother⟩ := State.memWrite_of_lt v hws ho
  exact ⟨s.setHeap m, hwrite, hset, hother, State.memRead_of_set hset ho, fun _ _ => rfl, rfl, rfl,
    rfl, rfl, rfl⟩

/-- Settles O30: the fetch is the bounds-checked read of array 0 at the finger. -/
theorem fetchReadsProgramOrFailsStep : Obligations.FetchReadsProgramOrFailsStep := by
  unfold Obligations.FetchReadsProgramOrFailsStep
  intro s
  have hfail : OutOfBounds s 0#32 s.pc → s.fetch = .error .outOfBoundsAccess :=
    State.memRead_of_outOfBounds
  refine ⟨fun ws v hws hv => ?_, hfail, fun hi hb => step_of_fetch_error hi (hfail hb)⟩
  exact State.memRead_of_getElem? (h := 0#32) hws hv

/-- Settles O44: the two writers of array 0 one by one, then the frame of every other instruction. -/
theorem fetchSeesEveryProgramWrite : Obligations.FetchSeesEveryProgramWrite := by
  unfold Obligations.FetchSeesEveryProgramWrite
  intro i s t _ _ hexec hidle
  refine ⟨?amend, ?loadprog, (exec_effect hexec).array?_zero⟩
  case amend =>
    rintro a b c rfl ha
    obtain ⟨ws, hws, hlt, hset, hpc⟩ := exec_amend_idle hexec hidle
    rw [ha] at hws hset
    refine ⟨fun ws' hws' => ?_, fun hb => ?_⟩
    · obtain rfl : ws = ws' := Option.some.inj (hws.symm.trans hws')
      exact hset
    · rw [t.fetch_eq, hpc, ← hb]
      exact State.memRead_of_set hset hlt
  case loadprog =>
    rintro b c rfl hb
    obtain ⟨hcopy, hpc⟩ := exec_loadprog_idle hexec hidle hb
    refine ⟨hcopy, ?_⟩
    rw [t.fetch_eq, hpc]
    exact State.memRead_congr (h := 0#32) hcopy _

end Sys2Proof.Machine
end

section
/-!
PROOFS, 30_encoding.md. The decoder keeps the opcode of the word, so an instruction that its opcode alone
fixes is the decoding of exactly the words with that opcode; the illegal instructions are two of these.
-/

namespace Sys2Proof

/-! ### The opcode of a decoded word (R98) -/

/-- The decoder's catch-all arm is taken by opcode 15 alone, since the field has four bits. -/
theorem decode_opcode (w : Word) : (decode w).opcode = w.toNat / 2 ^ 28 := by
  have hlt : opcodeField w < 16 := (w.extractLsb' 28 4).isLt
  rw [← opcodeField_eq]
  unfold decode
  split
  all_goals
    simp only [Instr.opcode, imp_false] at *
    omega

/-! ### The illegal words (R97) -/

theorem Instr.eq_illegal14_iff (i : Instr) : i = .illegal14 ↔ i.opcode = 14 := by
  cases i <;> simp [Instr.opcode]

theorem Instr.eq_illegal15_iff (i : Instr) : i = .illegal15 ↔ i.opcode = 15 := by
  cases i <;> simp [Instr.opcode]

theorem decode_eq_illegal14_iff (w : Word) : decode w = .illegal14 ↔ w.toNat / 2 ^ 28 = 14 := by
  rw [Instr.eq_illegal14_iff, decode_opcode]

theorem decode_eq_illegal15_iff (w : Word) : decode w = .illegal15 ↔ w.toNat / 2 ^ 28 = 15 := by
  rw [Instr.eq_illegal15_iff, decode_opcode]

end Sys2Proof

namespace Sys2Proof.Machine

/-! ### Executing an illegal word (R123, R221) -/

theorem exec_illegal14 (s : State) : exec .illegal14 s = .next (s.fail .illegalOpcode) := rfl

theorem exec_illegal15 (s : State) : exec .illegal15 s = .next (s.fail .illegalOpcode) := rfl

/-- The step from Idle dispatches the fetched word (40_engine_cycle.md R121). -/
theorem step_of_fetch_ok {s : State} {w : Word} (hi : s.state = .idle) (hf : s.fetch = .ok w) :
    step s = exec (decode w) s := by
  simp only [step, transition, hi, engineStep, hf]

theorem step_of_illegal_word {s : State} {w : Word} (hi : s.state = .idle) (hf : s.fetch = .ok w)
    (hop : w.toNat / 2 ^ 28 = 14 ∨ w.toNat / 2 ^ 28 = 15) :
    step s = .next (s.fail .illegalOpcode) := by
  rw [step_of_fetch_ok hi hf]
  rcases hop with h14 | h15
  · rw [(decode_eq_illegal14_iff w).2 h14, exec_illegal14]
  · rw [(decode_eq_illegal15_iff w).2 h15, exec_illegal15]

/-! ### The obligations -/

/-- Settles O2: each field is three bits of the word from its lowest bit on. -/
theorem registerFieldsAreBitRanges : Obligations.RegisterFieldsAreBitRanges := by
  unfold Obligations.RegisterFieldsAreBitRanges
  intro w
  have hC : (fieldC w).val = w.toNat % 8 := by
    rw [fieldC, regField_val, pow_zero, Nat.div_one]
  exact ⟨regField_val w 6, regField_val w 3, hC, regField_val w 25⟩

/-- Settles O7: the decoder keeps the opcode, and both illegal instructions take the exception, which
changes the state machine alone. -/
theorem illegalWordsFailWithIllegalOpcode : Obligations.IllegalWordsFailWithIllegalOpcode := by
  unfold Obligations.IllegalWordsFailWithIllegalOpcode
  exact ⟨fun w => ⟨decode_eq_illegal14_iff w, decode_eq_illegal15_iff w⟩,
    fun s => ⟨exec_illegal14 s, exec_illegal15 s⟩, fun _ _ => step_of_illegal_word⟩

end Sys2Proof.Machine
end

section
/-!
PROOFS, 41_move_array.md. Match and mask give the opcode field, and each opcode its arm of the decoder; then
the meaning of CMOV, INDEX and AMEND over `writeBack`, `memRead` and `memWrite`, with the frame of an
instruction that writes one register.
-/

namespace Sys2Proof

/-! ### Match and mask (30_encoding.md R90, R96) -/

/-- The mask 0xF0000000 keeps the opcode field. -/
theorem opcodeField_and_mask (w : Word) : opcodeField (w &&& 0xF0000000#32) = opcodeField w := by
  have hones : (0xF0000000#32).extractLsb' 28 4 = BitVec.allOnes 4 := by decide
  rw [opcodeField, BitVec.extractLsb'_and, hones, BitVec.and_allOnes, opcodeField]

/-- A word that matches under the mask has the opcode of the match. -/
theorem opcodeField_of_match {w m : Word} (h : w &&& 0xF0000000#32 = m) :
    opcodeField w = opcodeField m := by
  rw [← h, opcodeField_and_mask]

theorem decode_cmov {w : Word} (h : opcodeField w = 0) :
    decode w = .cmov (fieldA w) (fieldB w) (fieldC w) := by
  simp only [decode, h]

theorem decode_index {w : Word} (h : opcodeField w = 1) :
    decode w = .index (fieldA w) (fieldB w) (fieldC w) := by
  simp only [decode, h]

theorem decode_amend {w : Word} (h : opcodeField w = 2) :
    decode w = .amend (fieldA w) (fieldB w) (fieldC w) := by
  simp only [decode, h]

end Sys2Proof

namespace Sys2Proof.Machine

/-! ### An operation that may fail, where its answer is known (40_engine_cycle.md R127) -/

theorem State.attempt_of_ok {α : Type} (s : State) {res : Except FailReason α} {v : α}
    (k : α → State) (h : res = .ok v) : s.attempt res k = .next (k v) := by
  rw [h, State.attempt]

theorem State.attempt_of_error {α : Type} (s : State) {res : Except FailReason α} {r : FailReason}
    (k : α → State) (h : res = .error r) : s.attempt res k = .next (s.fail r) := by
  rw [h, State.attempt]

/-! ### Writing one register back -/

/-- Writing a register's own value back only advances the finger. -/
theorem State.writeBack_reg (s : State) (r : Reg) : s.writeBack r (s.reg r) = s.advance := by
  simp only [State.writeBack, State.setReg, State.reg, Fin.getElem_fin, Vector.set_getElem_self]

/-- The frame of a write-back, in the terms of the statements: pc + 1, and nothing else but x[r]. -/
theorem State.writeBack_frame (s : State) (r : Reg) (v : Word) :
    SameRegsExcept [r] s (s.writeBack r v) ∧ (s.writeBack r v).pc = s.pc + 1#32 ∧
      (s.writeBack r v).state = s.state ∧ SameMemory s (s.writeBack r v) ∧
      SameHostSide s (s.writeBack r v) := by
  have hregs : SameRegsExcept [r] s (s.writeBack r v) :=
    fun _ hq => s.reg_writeBack_ne v (List.ne_of_not_mem_cons hq)
  exact ⟨hregs, rfl, rfl, fun _ => rfl, rfl, rfl, rfl⟩

/-! ### The meanings -/

/-- CMOV always writes x[A] back (R150): with x[B], or with its own value where the condition is 0. -/
theorem exec_cmov (a b c : Reg) (s : State) :
    exec (.cmov a b c) s =
      .next (s.writeBack a (if s.reg c ≠ 0#32 then s.reg b else s.reg a)) := by
  by_cases hc : s.reg c = 0#32
  · simp only [exec, execCmov, nonZero, hc, ne_eq, not_true_eq_false, decide_false,
      Bool.false_eq_true, if_false, State.writeBack_reg]
  · simp only [exec, execCmov, nonZero, hc, ne_eq, not_false_eq_true, decide_true, if_true]

theorem exec_index (a b c : Reg) (s : State) :
    exec (.index a b c) s = s.attempt (s.memRead (s.reg b) (s.reg c)) (s.writeBack a) := rfl

theorem exec_amend (a b c : Reg) (s : State) :
    exec (.amend a b c) s =
      s.attempt (s.memWrite (s.reg a) (s.reg b) (s.reg c)) State.advance := rfl

/-! ### The obligations -/

/-- Settles O9: CMOV is a write-back whatever the condition. -/
theorem cmovMovesWhenConditionNonZero : Obligations.CmovMovesWhenConditionNonZero := by
  unfold Obligations.CmovMovesWhenConditionNonZero
  exact ⟨fun _ hw => decode_cmov (opcodeField_of_match hw),
    fun a b c s => ⟨_, exec_cmov a b c s, s.reg_writeBack_self a _, s.writeBack_frame a _⟩⟩

/-- Settles O10: INDEX writes back what MemRead answers, or takes its exception. -/
theorem indexLoadsOrFailsOutOfBounds : Obligations.IndexLoadsOrFailsOutOfBounds := by
  unfold Obligations.IndexLoadsOrFailsOutOfBounds
  refine ⟨fun _ hw => decode_index (opcodeField_of_match hw), fun a b c s => ?_⟩
  rw [exec_index]
  refine ⟨fun ws v hws hv => ?loads, fun hb => ?fails⟩
  case loads =>
    have hread := State.memRead_of_getElem? hws hv
    exact ⟨_, s.attempt_of_ok _ hread, s.reg_writeBack_self a v, s.writeBack_frame a v⟩
  case fails => exact s.attempt_of_error _ (State.memRead_of_outOfBounds hb)

/-- Settles O11: AMEND stores through MemWrite, which changes one word of one array, or takes its
exception. -/
theorem amendStoresOneWordOrFails : Obligations.AmendStoresOneWordOrFails := by
  unfold Obligations.AmendStoresOneWordOrFails
  refine ⟨fun _ hw => decode_amend (opcodeField_of_match hw), fun a b c s => ?_⟩
  rw [exec_amend]
  refine ⟨fun ws hws ho => ?stores, fun hb => ?fails⟩
  case stores =>
    obtain ⟨m, hwrite, hset, hother⟩ := State.memWrite_of_lt (s.reg c) hws ho
    exact ⟨(s.setHeap m).advance, s.attempt_of_ok _ hwrite, hset, hother, fun _ _ => rfl, rfl, rfl,
      rfl, rfl, rfl⟩
  case fails => exact s.attempt_of_error _ (State.memWrite_of_outOfBounds (s.reg c) hb)

end Sys2Proof.Machine
end

section
/-!
PROOFS, 42_alu.md. What each ALU function computes, as an equation on integers or on bits; then ADD, MUL and
NAND are a write-back of their result, and DIV is one where the divisor is not 0.
-/

namespace Sys2Proof

/-! ### The words of the ALU instructions (30_encoding.md R96) -/

theorem decode_add {w : Word} (h : opcodeField w = 3) :
    decode w = .add (fieldA w) (fieldB w) (fieldC w) := by
  simp only [decode, h]

theorem decode_mul {w : Word} (h : opcodeField w = 4) :
    decode w = .mul (fieldA w) (fieldB w) (fieldC w) := by
  simp only [decode, h]

theorem decode_div {w : Word} (h : opcodeField w = 5) :
    decode w = .div (fieldA w) (fieldB w) (fieldC w) := by
  simp only [decode, h]

theorem decode_nand {w : Word} (h : opcodeField w = 6) :
    decode w = .nand (fieldA w) (fieldB w) (fieldC w) := by
  simp only [decode, h]

end Sys2Proof

namespace Sys2Proof.Machine

/-! ### The ALU functions -/

theorem aluAdd_toNat (b c : Word) : (aluAdd b c).toNat = (b.toNat + c.toNat) % 2 ^ 32 :=
  BitVec.toNat_ofNat ..

theorem aluMul_toNat (b c : Word) : (aluMul b c).toNat = (b.toNat * c.toNat) % 2 ^ 32 :=
  BitVec.toNat_ofNat ..

/-- The quotient is at most the dividend, so it fits in a word and no bit of it is lost. -/
theorem aluDiv_of_ne_zero (b : Word) {c : Word} (hc : c ≠ 0#32) :
    ∃ q, aluDiv b c = .ok q ∧ q.toNat = b.toNat / c.toNat := by
  have hfits : b.toNat / c.toNat < 2 ^ 32 := (Nat.div_le_self ..).trans_lt b.isLt
  exact ⟨_, if_neg hc, Nat.mod_eq_of_lt hfits⟩

theorem aluDiv_zero (b : Word) : aluDiv b 0#32 = .error .divisionByZero := if_pos rfl

theorem aluNand_getLsbD (b c : Word) {k : Nat} (hk : k < 32) :
    (aluNand b c).getLsbD k = !(b.getLsbD k && c.getLsbD k) := by
  rw [aluNand, BitVec.getLsbD_not, BitVec.getLsbD_and, decide_eq_true hk, Bool.true_and]

/-! ### The meanings -/

theorem exec_add (a b c : Reg) (s : State) :
    exec (.add a b c) s = .next (s.writeBack a (aluAdd (s.reg b) (s.reg c))) := rfl

theorem exec_mul (a b c : Reg) (s : State) :
    exec (.mul a b c) s = .next (s.writeBack a (aluMul (s.reg b) (s.reg c))) := rfl

theorem exec_div (a b c : Reg) (s : State) :
    exec (.div a b c) s = s.attempt (aluDiv (s.reg b) (s.reg c)) (s.writeBack a) := rfl

theorem exec_nand (a b c : Reg) (s : State) :
    exec (.nand a b c) s = .next (s.writeBack a (aluNand (s.reg b) (s.reg c))) := rfl

/-! ### The obligations -/

/-- Settles O12: ADD writes back the sum, reduced once. -/
theorem addWrapsModulo : Obligations.AddWrapsModulo := by
  unfold Obligations.AddWrapsModulo
  refine ⟨fun _ hw => decode_add (opcodeField_of_match hw), fun a b c s => ?_⟩
  refine ⟨_, exec_add a b c s, ?_, s.writeBack_frame a _⟩
  rw [s.reg_writeBack_self, aluAdd_toNat]

/-- Settles O13: MUL writes back the product, reduced once. -/
theorem mulWrapsModulo : Obligations.MulWrapsModulo := by
  unfold Obligations.MulWrapsModulo
  refine ⟨fun _ hw => decode_mul (opcodeField_of_match hw), fun a b c s => ?_⟩
  refine ⟨_, exec_mul a b c s, ?_, s.writeBack_frame a _⟩
  rw [s.reg_writeBack_self, aluMul_toNat]

/-- Settles O14: DIV writes back the quotient, or takes its exception. -/
theorem divQuotientOrDivisionByZero : Obligations.DivQuotientOrDivisionByZero := by
  unfold Obligations.DivQuotientOrDivisionByZero
  refine ⟨fun _ hw => decode_div (opcodeField_of_match hw), fun a b c s => ?_⟩
  rw [exec_div]
  refine ⟨fun hc => ?divides, fun hc => ?fails⟩
  case divides =>
    obtain ⟨q, hdiv, hq⟩ := aluDiv_of_ne_zero (s.reg b) hc
    refine ⟨_, s.attempt_of_ok _ hdiv, ?_, s.writeBack_frame a q⟩
    rw [s.reg_writeBack_self, hq]
  case fails =>
    rw [hc]
    exact s.attempt_of_error _ (aluDiv_zero _)

/-- Settles O15: NAND writes back the complemented conjunction, read off bit by bit. -/
theorem nandComplementsConjunction : Obligations.NandComplementsConjunction := by
  unfold Obligations.NandComplementsConjunction
  refine ⟨fun _ hw => decode_nand (opcodeField_of_match hw), fun a b c s => ?_⟩
  refine ⟨_, exec_nand a b c s, fun k hk => ?_, s.writeBack_frame a _⟩
  rw [s.reg_writeBack_self, aluNand_getLsbD _ _ hk]

end Sys2Proof.Machine
end

section
/-!
PROOFS, 43_control.md. What a bounded run does in terms of `step`: it stays where no step is made, takes one
step from Idle, and so hands over the pending output at the first step that leaves Idle. HALT is such a step.
-/

namespace Sys2Proof

/-! ### The words of HALT (30_encoding.md R96) -/

theorem decode_halt {w : Word} (h : opcodeField w = 7) : decode w = .halt := by
  simp only [decode, h]

end Sys2Proof

namespace Sys2Proof.Machine

/-! ### The steps of a run (40_engine_cycle.md R130, R131) -/

/-- A machine that is not Idle makes no step of a run, whatever budget is left. -/
theorem runSteps_of_not_idle {s : State} (h : s.state ≠ .idle) (k : Nat) : runSteps k s = .next s := by
  cases k with
  | zero => rfl
  | succ k =>
    cases hs : s.state with
    | idle => exact absurd hs h
    | waiting c => simp only [runSteps, hs]
    | halted => simp only [runSteps, hs]
    | failed r => simp only [runSteps, hs]

/-- A run in Idle goes on from where its first step leads. -/
theorem runSteps_succ_of_step {s t : State} (hi : s.state = .idle) (ht : step s = .next t) (k : Nat) :
    runSteps (k + 1) s = runSteps k t := by
  have hengine : engineStep s = .next t := by
    rw [← ht, step, transition, hi]
  simp only [runSteps, hi, hengine]

/-- A run with a budget hands over what is pending where its steps end. -/
theorem runBounded_of_runSteps {s t : State} {k : Nat} (hk : 1 ≤ k) (h : runSteps k s = .next t) :
    runBounded k s = .next (t.outq, { t with outq := [] }) := by
  simp only [runBounded, if_neg (Nat.one_le_iff_ne_zero.1 hk), h, collect]

/-- A run whose first step leaves Idle returns after that step, with the output then pending. -/
theorem runBounded_of_step_leaves_idle {s t : State} {k : Nat} (hi : s.state = .idle)
    (ht : step s = .next t) (hleft : t.state ≠ .idle) (hk : 1 ≤ k) :
    runBounded k s = .next (t.outq, { t with outq := [] }) := by
  obtain ⟨j, rfl⟩ := Nat.exists_eq_add_of_le' hk
  have hsteps : runSteps (j + 1) s = .next t := by
    rw [runSteps_succ_of_step hi ht, runSteps_of_not_idle hleft]
  exact runBounded_of_runSteps hk hsteps

/-! ### HALT -/

theorem exec_halt (s : State) : exec .halt s = .next (s.setState .halted) := rfl

theorem step_of_halt_word {s : State} {w : Word} (hi : s.state = .idle) (hf : s.fetch = .ok w)
    (hw : decode w = .halt) : step s = .next (s.setState .halted) := by
  rw [step_of_fetch_ok hi hf, hw, exec_halt]

/-! ### The obligation -/

/-- Settles O16: HALT enters Halted, which is not Idle, so the run that executes it ends there with the
output that was pending before. -/
theorem haltKeepsEverythingElse : Obligations.HaltKeepsEverythingElse := by
  unfold Obligations.HaltKeepsEverythingElse
  refine ⟨fun _ hw => decode_halt (opcodeField_of_match hw), exec_halt, fun s w k hi hf hw hk => ?_⟩
  have hstep : step s = .next (s.setState .halted) := step_of_halt_word hi hf hw
  have hleft : (s.setState .halted).state ≠ .idle := nofun
  exact runBounded_of_step_leaves_idle hi hstep hleft hk

end Sys2Proof.Machine
end

section
/-!
PROOFS, 45_io.md. The range check of OUT as an equation on each side of 255; IN as a step that leaves Idle,
so that the run ends with it; and the value and the frame of the resumption that completes it.
-/

namespace Sys2Proof

/-! ### The words of OUT and IN (30_encoding.md R96) -/

theorem decode_out {w : Word} (h : opcodeField w = 10) : decode w = .out (fieldC w) := by
  simp only [decode, h]

theorem decode_inp {w : Word} (h : opcodeField w = 11) : decode w = .inp (fieldC w) := by
  simp only [decode, h]

end Sys2Proof

namespace Sys2Proof.Machine

/-! ### The range check of OUT (R200, R202) -/

/-- A value that passes the check fits in a byte, so no bit of it is lost. -/
theorem outputByte_of_le {v : Word} (hv : v.toNat ≤ 255) :
    ∃ b, outputByte v = .ok b ∧ b.toNat = v.toNat := by
  have hfits : v.toNat < 2 ^ 8 := Nat.lt_succ_of_le hv
  exact ⟨_, if_neg hv.not_gt, Nat.mod_eq_of_lt hfits⟩

theorem outputByte_of_gt {v : Word} (hv : 255 < v.toNat) : outputByte v = .error .outputOutOfRange :=
  if_pos hv

/-! ### The value of an input (R205) -/

theorem inputValue_byte_toNat (b : Byte) : (inputValue (.byte b)).toNat = b.toNat :=
  BitVec.toNat_setWidth_of_le (by decide)

theorem inputValue_endOfInput : inputValue .endOfInput = 0xFFFFFFFF#32 := rfl

/-! ### The meanings -/

theorem exec_out (c : Reg) (s : State) :
    exec (.out c) s = s.attempt (outputByte (s.reg c)) fun b => (s.appendOut b).advance := rfl

theorem exec_inp (c : Reg) (s : State) : exec (.inp c) s = .next (s.setState (.waiting c)) := rfl

theorem step_of_inp_word {s : State} {w : Word} {c : Reg} (hi : s.state = .idle)
    (hf : s.fetch = .ok w) (hw : decode w = .inp c) : step s = .next (s.setState (.waiting c)) := by
  rw [step_of_fetch_ok hi hf, hw, exec_inp]

/-! ### The resumption (40_engine_cycle.md R133, R205) -/

theorem supplyInput_of_waiting {s : State} {c : Reg} (hs : s.state = .waiting c) (i : HostInput) :
    supplyInput i s = .next (s.resume c i) := by
  simp only [supplyInput, hs]

theorem State.reg_resume_self (s : State) (c : Reg) (i : HostInput) :
    (s.resume c i).reg c = inputValue i := by
  rw [State.reg_resume, if_pos rfl]

/-- The frame of a resumption, in the terms of the statements: pc + 1 and Idle, and nothing else
but x[c]. -/
theorem State.resume_frame (s : State) (c : Reg) (i : HostInput) :
    SameRegsExcept [c] s (s.resume c i) ∧ (s.resume c i).pc = s.pc + 1#32 ∧
      (s.resume c i).state = .idle ∧ SameMemory s (s.resume c i) ∧ SameHostSide s (s.resume c i) := by
  obtain ⟨hregs, hpc, -, hmem, hhost⟩ := s.writeBack_frame c (inputValue i)
  exact ⟨hregs, hpc, rfl, hmem, hhost⟩

/-! ### The obligations -/

/-- Settles O23: OUT appends the byte that the range check answers, or takes its exception. -/
theorem outAppendsByteOrFails : Obligations.OutAppendsByteOrFails := by
  unfold Obligations.OutAppendsByteOrFails
  refine ⟨fun _ hw => decode_out (opcodeField_of_match hw), fun c s => ?_⟩
  rw [exec_out]
  refine ⟨fun hc => ?appends, fun hc => ?fails⟩
  case appends =>
    obtain ⟨b, hcheck, hb⟩ := outputByte_of_le hc
    exact ⟨(s.appendOut b).advance, b, s.attempt_of_ok _ hcheck, rfl, hb, fun _ _ => rfl,
      fun _ => rfl, rfl, rfl, rfl, rfl⟩
  case fails => exact s.attempt_of_error _ (outputByte_of_gt hc)

/-- Settles O24: IN enters Waiting, which is not Idle, so the run that executes it ends there with the
output that was pending before. -/
theorem inEntersWaiting : Obligations.InEntersWaiting := by
  unfold Obligations.InEntersWaiting
  refine ⟨fun _ hw => decode_inp (opcodeField_of_match hw), exec_inp, fun s w c k hi hf hw hk => ?_⟩
  have hstep : step s = .next (s.setState (.waiting c)) := step_of_inp_word hi hf hw
  have hleft : (s.setState (.waiting c)).state ≠ .idle := nofun
  exact runBounded_of_step_leaves_idle hi hstep hleft hk

/-- Settles O25: the resumption writes the value of the input, whichever input it is. -/
theorem resumptionCompletesInput : Obligations.ResumptionCompletesInput := by
  unfold Obligations.ResumptionCompletesInput
  intro c s i hs
  refine ⟨s.resume c i, supplyInput_of_waiting hs i, ?byte, ?endOfInput, s.resume_frame c i⟩
  case byte =>
    rintro b rfl
    rw [s.reg_resume_self, inputValue_byte_toNat]
  case endOfInput =>
    rintro rfl
    rw [s.reg_resume_self, inputValue_endOfInput]

end Sys2Proof.Machine
end

section
/-!
PROOFS, 46_immediate.md. ORTH is the one instruction of the immediate format: its register and its immediate
are read from the word by `fieldA'` and `immField`, and it writes the immediate back as it stands.
-/

namespace Sys2Proof

/-! ### The words of ORTH (30_encoding.md R91, R96) -/

theorem decode_orth {w : Word} (h : opcodeField w = 13) :
    decode w = .orth (fieldA' w) (immField w) := by
  simp only [decode, h]

end Sys2Proof

namespace Sys2Proof.Machine

/-! ### The meaning -/

theorem exec_orth (a : Reg) (imm : Word) (s : State) :
    exec (.orth a imm) s = .next (s.writeBack a imm) := rfl

/-! ### The obligation -/

/-- Settles O28: the two fields are the bit ranges of R91, and the meaning is a write-back of the immediate,
which cannot fail. -/
theorem orthLoadsImmediate : Obligations.OrthLoadsImmediate := by
  unfold Obligations.OrthLoadsImmediate
  refine ⟨fun w hw => ?decodes, fun a imm s => ?executes⟩
  case decodes =>
    have hdecode : decode w = .orth (fieldA' w) (immField w) := decode_orth (opcodeField_of_match hw)
    exact ⟨fieldA' w, immField w, hdecode, regField_val w 25, immField_toNat w⟩
  case executes =>
    exact ⟨_, exec_orth a imm s, s.reg_writeBack_self a imm, s.writeBack_frame a imm⟩

end Sys2Proof.Machine
end

section
/-!
PROOFS, 70_reset_and_hazards.md. The words of an image, one per four bytes and big-endian; then what an
accepted creation is: the fresh machine, whose array 0 is these words.
-/

namespace Sys2Proof

/-- The four bytes of a word stay apart: the big-endian sum fits, and no bit of it is lost
(20_memory.md R63). -/
theorem wordOfBytes_toNat (b0 b1 b2 b3 : Byte) :
    (wordOfBytes b0 b1 b2 b3).toNat =
      b0.toNat * 2 ^ 24 + b1.toNat * 2 ^ 16 + b2.toNat * 2 ^ 8 + b3.toNat := by
  rw [wordOfBytes, BitVec.toNat_ofNat]
  exact Nat.mod_eq_of_lt (by omega)

end Sys2Proof

namespace Sys2Proof.Machine

/-! ### The words of an image (R252) -/

theorem imageWords_length (image : List Byte) : (imageWords image).length = image.length / 4 := by
  induction image using imageWords.induct with
  | case1 b0 b1 b2 b3 rest ih =>
    simp only [imageWords, List.length_cons, ih]
    omega
  | case2 image hshort =>
    match image with
    | [] | [_] | [_, _] | [_, _, _] => simp [imageWords]
    | b0 :: b1 :: b2 :: b3 :: rest => exact absurd rfl (hshort b0 b1 b2 b3 rest)

/-- Word k of an image is made of its bytes 4k .. 4k+3. -/
theorem imageWords_getElem? (image : List Byte) (k : Nat) (hk : k < (imageWords image).length) :
    ∃ b0 b1 b2 b3, (imageWords image)[k]? = some (wordOfBytes b0 b1 b2 b3) ∧
      image[4 * k]? = some b0 ∧ image[4 * k + 1]? = some b1 ∧ image[4 * k + 2]? = some b2 ∧
      image[4 * k + 3]? = some b3 := by
  induction image using imageWords.induct generalizing k with
  | case1 b0 b1 b2 b3 rest ih =>
    cases k with
    | zero => exact ⟨b0, b1, b2, b3, rfl, rfl, rfl, rfl, rfl⟩
    | succ k => exact ih k (Nat.lt_of_succ_lt_succ hk)
  | case2 image hshort => simp only [imageWords, List.length_nil, Nat.not_lt_zero] at hk

/-! ### What create accepts (R252, R253) -/

/-- create answers a machine exactly for whole words, few enough for the word size and for the heap; the
machine is then the fresh one with the words of the image. -/
theorem create_eq_next_iff {c : Config} {image : List Byte} {s : State} :
    create c image = .next s ↔ image.length % 4 = 0 ∧ image.length / 4 ≤ wordMax ∧
      fitsCapacity c (image.length / 4) = true ∧ State.fresh c (imageWords image) = s := by
  unfold create
  split
  · next hpart => simp only [reduceCtorEq, hpart, false_and]
  · next hwhole =>
    split
    · next hlong => simp only [reduceCtorEq, Nat.not_le.2 hlong, false_and, and_false]
    · next hshort =>
      split
      · next hfits =>
        simp only [Host.Outcome.next.injEq, not_not.1 hwhole, Nat.not_lt.1 hshort, hfits, true_and]
      · next hfull => simp only [reduceCtorEq, hfull, false_and, and_false]

theorem State.fresh_array?_zero (c : Config) (ws : List Word) :
    (State.fresh c ws).heap.array? 0 = some ws := by
  have hlook : lookupKey (State.fresh c ws).heap 0 = some (WordArray.ofWords ws) := rfl
  rw [Memory.array?_of_lookupKey hlook, WordArray.words_ofWords]

/-! ### The obligation -/

/-- Settles O52: the machine that create makes is the fresh one, with the words of the image in array 0. -/
theorem createLoadsBigEndianImage : Obligations.CreateLoadsBigEndianImage := by
  unfold Obligations.CreateLoadsBigEndianImage
  intro c image s hcreate
  obtain ⟨hwhole, -, -, rfl⟩ := create_eq_next_iff.1 hcreate
  refine ⟨imageWords image, State.fresh_array?_zero c _, ?length, fun k hk => ?word⟩
  case length =>
    rw [imageWords_length]
    exact Nat.div_mul_cancel (Nat.dvd_of_mod_eq_zero hwhole)
  case word =>
    obtain ⟨b0, b1, b2, b3, hword, hb0, hb1, hb2, hb3⟩ := imageWords_getElem? image k hk
    exact ⟨_, b0, b1, b2, b3, hword, hb0, hb1, hb2, hb3, wordOfBytes_toNat b0 b1 b2 b3⟩

end Sys2Proof.Machine
end

section
/-!
PROOFS, 30_encoding.md, decoder against encoder. Both sides of a round trip are numbers: the encoder writes
the opcode times 2^28 and, below it, the fields its opcode uses; the mask of R95 keeps the same two parts of
a word. The encoder is injective on well-formed instructions, so words with equal used bits decode alike.
-/

namespace Sys2Proof

/-! ### The remaining arms of the decoder (R96) -/

theorem decode_alloc {w : Word} (h : opcodeField w = 8) : decode w = .alloc (fieldB w) (fieldC w) := by
  simp only [decode, h]

theorem decode_abandon {w : Word} (h : opcodeField w = 9) : decode w = .abandon (fieldC w) := by
  simp only [decode, h]

theorem decode_loadprog {w : Word} (h : opcodeField w = 12) :
    decode w = .loadprog (fieldB w) (fieldC w) := by
  simp only [decode, h]

/-! ### The fields of an encoded word (R99) -/

/-- No part of a standard-format word runs into the next one. -/
theorem encodeStd_toNat {op : Nat} (hop : op < 16) (a b c : Reg) :
    (encodeStd op a b c).toNat = op * 2 ^ 28 + a * 2 ^ 6 + b * 2 ^ 3 + c := by
  rw [encodeStd, BitVec.toNat_ofNat]
  exact Nat.mod_eq_of_lt (by omega)

/-- The opcode and the fields of a standard-format word read back. -/
theorem encodeStd_fields {op : Nat} (hop : op < 16) (a b c : Reg) :
    opcodeField (encodeStd op a b c) = op ∧ fieldA (encodeStd op a b c) = a ∧
      fieldB (encodeStd op a b c) = b ∧ fieldC (encodeStd op a b c) = c := by
  simp only [opcodeField_eq, Fin.ext_iff, fieldA, fieldB, fieldC, regField_val, encodeStd_toNat hop]
  omega

theorem encode_orth_toNat (a : Reg) {imm : Word} (h : imm.toNat < 2 ^ 25) :
    (encode (.orth a imm)).toNat = 13 * 2 ^ 28 + a * 2 ^ 25 + imm.toNat := by
  rw [encode, BitVec.toNat_ofNat]
  exact Nat.mod_eq_of_lt (by omega)

theorem fieldA'_encode_orth (a : Reg) {imm : Word} (h : imm.toNat < 2 ^ 25) :
    fieldA' (encode (.orth a imm)) = a := by
  rw [Fin.ext_iff, fieldA', regField_val, encode_orth_toNat a h]
  omega

theorem immField_encode_orth (a : Reg) {imm : Word} (h : imm.toNat < 2 ^ 25) :
    immField (encode (.orth a imm)) = imm := by
  rw [← BitVec.toNat_inj, immField_toNat, encode_orth_toNat a h]
  omega

theorem Instr.wellFormed_orth_iff (a : Reg) (imm : Word) :
    (Instr.orth a imm).wellFormed = true ↔ imm.toNat < 2 ^ 25 := by
  rw [Instr.wellFormed, decide_eq_true_eq, immMax]
  omega

/-! ### Decode after encode (R98, R99) -/

theorem decode_encode {i : Instr} (hi : i.wellFormed = true) : decode (encode i) = i := by
  cases i with
  | cmov a b c =>
    obtain ⟨hop, hA, hB, hC⟩ := encodeStd_fields (op := 0) (by decide) a b c
    exact (decode_cmov hop).trans (by rw [hA, hB, hC])
  | index a b c =>
    obtain ⟨hop, hA, hB, hC⟩ := encodeStd_fields (op := 1) (by decide) a b c
    exact (decode_index hop).trans (by rw [hA, hB, hC])
  | amend a b c =>
    obtain ⟨hop, hA, hB, hC⟩ := encodeStd_fields (op := 2) (by decide) a b c
    exact (decode_amend hop).trans (by rw [hA, hB, hC])
  | add a b c =>
    obtain ⟨hop, hA, hB, hC⟩ := encodeStd_fields (op := 3) (by decide) a b c
    exact (decode_add hop).trans (by rw [hA, hB, hC])
  | mul a b c =>
    obtain ⟨hop, hA, hB, hC⟩ := encodeStd_fields (op := 4) (by decide) a b c
    exact (decode_mul hop).trans (by rw [hA, hB, hC])
  | div a b c =>
    obtain ⟨hop, hA, hB, hC⟩ := encodeStd_fields (op := 5) (by decide) a b c
    exact (decode_div hop).trans (by rw [hA, hB, hC])
  | nand a b c =>
    obtain ⟨hop, hA, hB, hC⟩ := encodeStd_fields (op := 6) (by decide) a b c
    exact (decode_nand hop).trans (by rw [hA, hB, hC])
  | halt => exact decode_halt (encodeStd_fields (op := 7) (by decide) 0 0 0).1
  | alloc b c =>
    obtain ⟨hop, -, hB, hC⟩ := encodeStd_fields (op := 8) (by decide) 0 b c
    exact (decode_alloc hop).trans (by rw [hB, hC])
  | abandon c =>
    obtain ⟨hop, -, -, hC⟩ := encodeStd_fields (op := 9) (by decide) 0 0 c
    exact (decode_abandon hop).trans (by rw [hC])
  | out c =>
    obtain ⟨hop, -, -, hC⟩ := encodeStd_fields (op := 10) (by decide) 0 0 c
    exact (decode_out hop).trans (by rw [hC])
  | inp c =>
    obtain ⟨hop, -, -, hC⟩ := encodeStd_fields (op := 11) (by decide) 0 0 c
    exact (decode_inp hop).trans (by rw [hC])
  | loadprog b c =>
    obtain ⟨hop, -, hB, hC⟩ := encodeStd_fields (op := 12) (by decide) 0 b c
    exact (decode_loadprog hop).trans (by rw [hB, hC])
  | orth a imm =>
    have himm := (Instr.wellFormed_orth_iff a imm).1 hi
    have hop : opcodeField (encode (.orth a imm)) = 13 :=
      (opcodeField_eq _).trans (Laws.EncodeOpcode.orth a imm hi)
    rw [decode_orth hop, fieldA'_encode_orth a himm, immField_encode_orth a himm]
  | illegal14 => exact (decode_eq_illegal14_iff _).2 (Laws.encodeStd_opcode 14 0 0 0 (by decide))
  | illegal15 => exact (decode_eq_illegal15_iff _).2 (Laws.encodeStd_opcode 15 0 0 0 (by decide))

theorem encode_injective {i j : Instr} (hi : i.wellFormed = true) (hj : j.wellFormed = true)
    (h : encode i = encode j) : i = j := by
  rw [← decode_encode hi, h, decode_encode hj]

/-! ### The bits an opcode uses (R95, R96) -/

/-- How many of the low bits the fields of an instruction take up: the used bits below the opcode. -/
def Instr.usedLowBits : Instr → Nat
  | .cmov _ _ _ => 9
  | .index _ _ _ => 9
  | .amend _ _ _ => 9
  | .add _ _ _ => 9
  | .mul _ _ _ => 9
  | .div _ _ _ => 9
  | .nand _ _ _ => 9
  | .halt => 0
  | .alloc _ _ => 6
  | .abandon _ => 3
  | .out _ => 3
  | .inp _ => 3
  | .loadprog _ _ => 6
  | .orth _ _ => 28
  | .illegal14 => 0
  | .illegal15 => 0

theorem Instr.usedLowBits_le (i : Instr) : i.usedLowBits ≤ 28 := by
  cases i <;> simp only [usedLowBits] <;> decide

/-- A mask is the four opcode bits and a run of low bits. -/
theorem usedMask_opcode_toNat (i : Instr) :
    (usedMask i.opcode).toNat = 2 ^ 28 * (2 ^ 4 - 1) + (2 ^ i.usedLowBits - 1) := by
  cases i <;> simp only [usedMask, Instr.opcode, Instr.usedLowBits] <;> decide

/-- Such a mask keeps the opcode and the low bits of a number, as two separate parts. -/
theorem and_top_and_low {x n : Nat} (hx : x < 2 ^ 32) (hn : n ≤ 28) :
    x &&& (2 ^ 28 * (2 ^ 4 - 1) + (2 ^ n - 1)) = 2 ^ 28 * (x / 2 ^ 28) + x % 2 ^ n := by
  have hpow : 2 ^ n ≤ 2 ^ 28 := Nat.pow_le_pow_right (by decide) hn
  have hpos : 0 < 2 ^ n := Nat.two_pow_pos n
  have hmask : 2 ^ n - 1 < 2 ^ 28 := by omega
  have hlow : x % 2 ^ n < 2 ^ 28 := (Nat.mod_lt x hpos).trans_le hpow
  apply Nat.eq_of_testBit_eq
  intro j
  rw [Nat.testBit_and, Nat.testBit_two_pow_mul_add _ hmask, Nat.testBit_two_pow_mul_add _ hlow]
  split
  · rw [Nat.testBit_two_pow_sub_one, Nat.testBit_mod_two_pow, Bool.and_comm]
  · next hj =>
    have hback : j - 28 + 28 = j := Nat.sub_add_cancel (Nat.not_lt.1 hj)
    rw [Nat.testBit_two_pow_sub_one, Nat.testBit_div_two_pow, hback]
    by_cases hin : j < 32
    · rw [decide_eq_true (by omega : j - 28 < 4), Bool.and_true]
    · have hzero : x.testBit j = false := Nat.testBit_lt_two_pow
        (hx.trans_le (Nat.pow_le_pow_right (by decide) (Nat.not_lt.1 hin)))
      rw [hzero, Bool.false_and]

theorem and_usedMask_toNat (w : Word) (i : Instr) :
    (w &&& usedMask i.opcode).toNat = 2 ^ 28 * (w.toNat / 2 ^ 28) + w.toNat % 2 ^ i.usedLowBits := by
  rw [BitVec.toNat_and, usedMask_opcode_toNat, and_top_and_low w.isLt i.usedLowBits_le]

/-! ### Encode after decode (R98, R99) -/

/-- The fields of a word, encoded again below an opcode, are its low nine bits. -/
theorem encodeStd_fieldABC {op : Nat} (hop : op < 16) (w : Word) :
    (encodeStd op (fieldA w) (fieldB w) (fieldC w)).toNat = 2 ^ 28 * op + w.toNat % 2 ^ 9 := by
  rw [encodeStd_toNat hop]
  simp only [fieldA, fieldB, fieldC, regField_val]
  omega

theorem encodeStd_fieldBC {op : Nat} (hop : op < 16) (w : Word) :
    (encodeStd op 0 (fieldB w) (fieldC w)).toNat = 2 ^ 28 * op + w.toNat % 2 ^ 6 := by
  refine (encodeStd_toNat hop 0 (fieldB w) (fieldC w)).trans ?_
  simp only [fieldB, fieldC, regField_val, Fin.val_zero]
  omega

theorem encodeStd_fieldC {op : Nat} (hop : op < 16) (w : Word) :
    (encodeStd op 0 0 (fieldC w)).toNat = 2 ^ 28 * op + w.toNat % 2 ^ 3 := by
  refine (encodeStd_toNat hop 0 0 (fieldC w)).trans ?_
  simp only [fieldC, regField_val, Fin.val_zero]
  omega

theorem immField_lt (w : Word) : (immField w).toNat < 2 ^ 25 := by
  rw [immField_toNat]
  exact Nat.mod_lt _ (by decide)

theorem encode_orth_fields (w : Word) :
    (encode (.orth (fieldA' w) (immField w))).toNat = 2 ^ 28 * 13 + w.toNat % 2 ^ 28 := by
  rw [encode_orth_toNat _ (immField_lt w), immField_toNat, fieldA', regField_val]
  omega

/-- Every word decodes to a well-formed instruction: the immediate is the only operand to check. -/
theorem decode_wellFormed (w : Word) : (decode w).wellFormed = true := by
  unfold decode
  split
  case h_14 => exact (Instr.wellFormed_orth_iff _ _).2 (immField_lt w)
  all_goals rfl

/-- Encoding what a word decodes to keeps its opcode and the low bits its fields take up. -/
theorem encode_decode_toNat (w : Word) :
    (encode (decode w)).toNat =
      2 ^ 28 * (decode w).opcode + w.toNat % 2 ^ (decode w).usedLowBits := by
  unfold decode
  split
  case h_1 | h_2 | h_3 | h_4 | h_5 | h_6 | h_7 => exact encodeStd_fieldABC (by decide) w
  case h_8 | h_15 | h_16 => simp [encode, encodeStd, Instr.opcode, Instr.usedLowBits, Nat.mod_one]
  case h_9 | h_13 => exact encodeStd_fieldBC (by decide) w
  case h_10 | h_11 | h_12 => exact encodeStd_fieldC (by decide) w
  case h_14 => exact encode_orth_fields w

theorem encode_decode (w : Word) : encode (decode w) = w &&& usedMask (w.toNat / 2 ^ 28) := by
  rw [← decode_opcode, ← BitVec.toNat_inj, encode_decode_toNat, and_usedMask_toNat, decode_opcode]

/-! ### Words with the same used bits (R95) -/

theorem opcode_of_and_usedMask {w w' : Word} {i : Instr}
    (h : w &&& usedMask i.opcode = w' &&& usedMask i.opcode) :
    w.toNat / 2 ^ 28 = w'.toNat / 2 ^ 28 := by
  have hpow : 2 ^ i.usedLowBits ≤ 2 ^ 28 := Nat.pow_le_pow_right (by decide) i.usedLowBits_le
  have hmod : ∀ v : Word, v.toNat % 2 ^ i.usedLowBits < 2 ^ 28 := fun v =>
    (Nat.mod_lt _ (Nat.two_pow_pos _)).trans_le hpow
  have hw := hmod w
  have hw' := hmod w'
  have heq := congrArg BitVec.toNat h
  rw [and_usedMask_toNat, and_usedMask_toNat] at heq
  omega

/-- Words that differ in unused bits only decode alike: what they decode to has the same encoding. -/
theorem decode_congr {w w' : Word}
    (h : w &&& usedMask (w.toNat / 2 ^ 28) = w' &&& usedMask (w.toNat / 2 ^ 28)) :
    decode w = decode w' := by
  have hop : w.toNat / 2 ^ 28 = w'.toNat / 2 ^ 28 := by
    rw [← decode_opcode w] at h
    exact opcode_of_and_usedMask h
  have henc : encode (decode w) = encode (decode w') := by
    rw [encode_decode, encode_decode, h, hop]
  exact encode_injective (decode_wellFormed w) (decode_wellFormed w') henc

/-! ### Bytes (20_memory.md R63) -/

theorem decodeBytes_cons (b0 b1 b2 b3 : Byte) (rest : List Byte) :
    decodeBytes (b0 :: b1 :: b2 :: b3 :: rest) = .ok (decode (wordOfBytes b0 b1 b2 b3), rest) := rfl

theorem decodeBytes_of_short {bs : List Byte} (h : bs.length < 4) :
    decodeBytes bs = .error .truncated := by
  match bs, h with
  | [], _ | [_], _ | [_, _], _ | [_, _, _], _ => rfl
  | _ :: _ :: _ :: _ :: _, h => simp only [List.length_cons] at h; omega

theorem wordOfBytes_bytesOfWord (w : Word) :
    wordOfBytes (w.extractLsb' 24 8) (w.extractLsb' 16 8) (w.extractLsb' 8 8) (w.extractLsb' 0 8) =
      w := by
  have hw := w.isLt
  simp only [← BitVec.toNat_inj, wordOfBytes, BitVec.toNat_ofNat, BitVec.extractLsb'_toNat,
    Nat.shiftRight_eq_div_pow]
  omega

/-! ### The obligations -/

/-- Settles O4: a case per constructor, in which the fields of the encoded word read back. -/
theorem decodeOfEncodeIsIdentity : Obligations.DecodeOfEncodeIsIdentity := by
  unfold Obligations.DecodeOfEncodeIsIdentity
  exact fun _ => decode_encode

/-- Settles O5: both sides are the opcode and the low bits that the fields take up. -/
theorem encodeOfDecodeClearsUnusedBits : Obligations.EncodeOfDecodeClearsUnusedBits := by
  unfold Obligations.EncodeOfDecodeClearsUnusedBits
  exact fun w => ⟨decode_wellFormed w, encode_decode w⟩

/-- Settles O6: by O5 the two decoded instructions have one encoding, by O4 they are equal. -/
theorem unusedBitsAreIgnored : Obligations.UnusedBitsAreIgnored := by
  unfold Obligations.UnusedBitsAreIgnored
  exact fun _ _ => decode_congr

/-- Settles O3: the given operands are the fields of the word; then the arm of each opcode. -/
theorem decodeByOpcodeNumber : Obligations.DecodeByOpcodeNumber := by
  unfold Obligations.DecodeByOpcodeNumber
  intro w a b c a' imm ha hb hc ha' himm
  obtain rfl : a = fieldA w := Fin.ext (ha.trans (regField_val w 6).symm)
  obtain rfl : b = fieldB w := Fin.ext (hb.trans (regField_val w 3).symm)
  obtain rfl : c = fieldC w := Fin.ext (by rw [hc, fieldC, regField_val, pow_zero, Nat.div_one])
  obtain rfl : a' = fieldA' w := Fin.ext (ha'.trans (regField_val w 25).symm)
  obtain rfl : imm = immField w := BitVec.eq_of_toNat_eq (himm.trans (immField_toNat w).symm)
  rw [← opcodeField_eq]
  exact ⟨decode_cmov, decode_index, decode_amend, decode_add, decode_mul, decode_div, decode_nand,
    decode_halt, decode_alloc, decode_abandon, decode_out, decode_inp, decode_loadprog, decode_orth,
    fun h => (decode_eq_illegal14_iff w).2 (opcodeField_eq w ▸ h),
    fun h => (decode_eq_illegal15_iff w).2 (opcodeField_eq w ▸ h)⟩

/-- Settles O1: the decoder evaluated on each of the ten words. -/
theorem sampleWordsDecodeAsListed : Obligations.SampleWordsDecodeAsListed := by
  unfold Obligations.SampleWordsDecodeAsListed
  decide

/-- Settles O8: the word of four bytes is their big-endian sum, and the bytes of a word give it back. -/
theorem bytesDecodeBigEndian : Obligations.BytesDecodeBigEndian := by
  unfold Obligations.BytesDecodeBigEndian
  refine ⟨fun b0 b1 b2 b3 rest => ?reads, fun w rest => ?roundTrip, fun _ => decodeBytes_of_short⟩
  case reads => exact ⟨_, wordOfBytes_toNat b0 b1 b2 b3, decodeBytes_cons b0 b1 b2 b3 rest⟩
  case roundTrip =>
    have hword := wordOfBytes_bytesOfWord w
    exact (decodeBytes_cons _ _ _ _ rest).trans (by rw [hword])

end Sys2Proof
end

section
/-!
PROOFS, 40_engine_cycle.md. What one step can do, said once as `StepEffect`: a failed fetch, the instruction
fetched, the resumption of IN, or nothing. Then what every instruction does to each field outside the heap,
read off `ExecEffect`; the statements about every step combine the two.
-/

namespace Sys2Proof.Machine

/-! ### The step in each state (10_state.md R29) -/

theorem step_of_waiting_fed {s : State} {c : Reg} {i : HostInput} {rest : List HostInput}
    (hs : s.state = .waiting c) (hin : s.hostIn = i :: rest) :
    step s = .next (({ s with hostIn := rest } : State).resume c i) := by
  simp only [step, transition, hs, waitForHost, hin]

theorem step_of_waiting_unfed {s : State} {c : Reg} (hs : s.state = .waiting c)
    (hin : s.hostIn = []) : step s = .next s := by
  simp only [step, transition, hs, waitForHost, hin]

theorem step_of_terminal {s : State} (hs : s.state = .halted ∨ ∃ r, s.state = .failed r) :
    step s = .next s := by
  rcases hs with hs | ⟨r, hs⟩ <;> simp only [step, transition, hs]

/-- The effects of one step: `StepEffect s t` when a step may take `s` to `t`. -/
inductive StepEffect (s : State) : State → Prop where
  /-- The fetch fails, before anything is decoded (R122). -/
  | fetchFails (r : FailReason) (hi : s.state = .idle) (hf : s.fetch = .error r) :
      StepEffect s (s.fail r)
  /-- The instruction at the finger runs (R121). -/
  | executes (t : State) (w : Word) (hi : s.state = .idle) (hf : s.fetch = .ok w)
      (he : exec (decode w) s = .next t) : StepEffect s t
  /-- The host's next input completes IN (45_io.md R205). -/
  | resumes (c : Reg) (i : HostInput) (rest : List HostInput) (hs : s.state = .waiting c)
      (hin : s.hostIn = i :: rest) :
      StepEffect s (({ s with hostIn := rest } : State).resume c i)
  /-- No input is scheduled (log 1). -/
  | unfed (c : Reg) (hs : s.state = .waiting c) (hin : s.hostIn = []) : StepEffect s s
  /-- Halted or failed (log 1). -/
  | terminal (hs : s.state = .halted ∨ ∃ r, s.state = .failed r) : StepEffect s s

/-- Everything a step can do. -/
theorem step_effect {s t : State} (h : step s = .next t) : StepEffect s t := by
  cases hs : s.state with
  | idle =>
    cases hf : s.fetch with
    | error r => rw [step_of_fetch_error hs hf] at h; cases h; exact .fetchFails r hs hf
    | ok w => rw [step_of_fetch_ok hs hf] at h; exact .executes t w hs hf h
  | waiting c =>
    cases hin : s.hostIn with
    | nil => rw [step_of_waiting_unfed hs hin] at h; cases h; exact .unfed c hs hin
    | cons i rest => rw [step_of_waiting_fed hs hin] at h; cases h; exact .resumes c i rest hs hin
  | halted => rw [step_of_terminal (.inl hs)] at h; cases h; exact .terminal (.inl hs)
  | failed r =>
    rw [step_of_terminal (.inr ⟨r, hs⟩)] at h; cases h; exact .terminal (.inr ⟨r, hs⟩)

/-! ### A next state, always (R127) -/

theorem exec_alloc (b c : Reg) (s : State) :
    exec (.alloc b c) s = s.attempt (s.allocate (s.reg c)) fun p => p.2.writeBack b p.1 := rfl

theorem exec_abandon (c : Reg) (s : State) :
    exec (.abandon c) s = s.attempt (s.free (s.reg c)) State.advance := rfl

theorem exec_loadprog_jump {b : Reg} {s : State} (hb : s.reg b = 0#32) (c : Reg) :
    exec (.loadprog b c) s = .next (s.setPc (s.reg c)) := if_pos hb

theorem exec_loadprog_replace {b : Reg} {s : State} (hb : s.reg b ≠ 0#32) (c : Reg) :
    exec (.loadprog b c) s =
      s.attempt (s.replaceProgram (s.reg b)) fun t => t.setPc (s.reg c) := if_neg hb

theorem exec_next (i : Instr) (s : State) : ∃ t, exec i s = .next t := by
  cases i with
  | cmov a b c => exact ⟨_, exec_cmov a b c s⟩
  | index a b c => exact s.attempt_next _ _
  | amend a b c => exact s.attempt_next _ _
  | add a b c => exact ⟨_, exec_add a b c s⟩
  | mul a b c => exact ⟨_, exec_mul a b c s⟩
  | div a b c => exact s.attempt_next _ _
  | nand a b c => exact ⟨_, exec_nand a b c s⟩
  | halt => exact ⟨_, exec_halt s⟩
  | alloc b c => exact s.attempt_next _ _
  | abandon c => exact s.attempt_next _ _
  | out c => exact s.attempt_next _ _
  | inp c => exact ⟨_, exec_inp c s⟩
  | loadprog b c =>
    by_cases hb : s.reg b = 0#32
    · exact ⟨_, exec_loadprog_jump hb c⟩
    · rw [exec_loadprog_replace hb]; exact s.attempt_next _ _
  | orth a imm => exact ⟨_, exec_orth a imm s⟩
  | illegal14 => exact ⟨_, exec_illegal14 s⟩
  | illegal15 => exact ⟨_, exec_illegal15 s⟩

theorem step_next (s : State) : ∃ t, step s = .next t := by
  cases hs : s.state with
  | idle =>
    cases hf : s.fetch with
    | error r => exact ⟨_, step_of_fetch_error hs hf⟩
    | ok w => rw [step_of_fetch_ok hs hf]; exact exec_next (decode w) s
  | waiting c =>
    cases hin : s.hostIn with
    | nil => exact ⟨s, step_of_waiting_unfed hs hin⟩
    | cons i rest => exact ⟨_, step_of_waiting_fed hs hin⟩
  | halted => exact ⟨s, step_of_terminal (.inl hs)⟩
  | failed r => exact ⟨s, step_of_terminal (.inr ⟨r, hs⟩)⟩

/-! ### The state machine after an instruction (10_state.md R29) -/

/-- Only a failure, HALT and IN change the state machine, and they change nothing else. -/
theorem ExecEffect.state_cases {i : Instr} {s t : State} (h : ExecEffect i s t) :
    t.state = s.state ∨ (∃ r, t = s.fail r) ∨ (i = .halt ∧ t = s.setState .halted) ∨
      ∃ c, i = .inp c ∧ t = s.setState (.waiting c) := by
  cases h with
  | result | skip | stored | allocated | freed | output | jumped | replaced => exact .inl rfl
  | fails _ _ r => exact .inr (.inl ⟨r, rfl⟩)
  | halted => exact .inr (.inr (.inl ⟨rfl, rfl⟩))
  | waits c => exact .inr (.inr (.inr ⟨c, rfl, rfl⟩))

/-- An instruction that leaves a machine failed, which was not, took the exception (R127). -/
theorem ExecEffect.eq_fail {i : Instr} {s t : State} {r : FailReason} (h : ExecEffect i s t)
    (hi : s.state = .idle) (ht : t.state = .failed r) : t = s.fail r := by
  rcases h.state_cases with hsame | ⟨r', rfl⟩ | ⟨-, rfl⟩ | ⟨c, -, rfl⟩
  · rw [hsame, hi] at ht; cases ht
  · cases ht; rfl
  · cases ht
  · cases ht

theorem exec_state_halted_iff {i : Instr} {s t : State} (h : exec i s = .next t)
    (hi : s.state = .idle) : t.state = .halted ↔ i = .halt := by
  constructor
  · intro ht
    rcases (exec_effect h).state_cases with hsame | ⟨r, rfl⟩ | ⟨hi', -⟩ | ⟨c, -, rfl⟩
    · rw [hsame, hi] at ht; cases ht
    · cases ht
    · exact hi'
    · cases ht
  · rintro rfl
    rw [exec_halt] at h
    cases h
    rfl

theorem exec_state_waiting_iff {i : Instr} {s t : State} (h : exec i s = .next t)
    (hi : s.state = .idle) (c : Reg) : t.state = .waiting c ↔ i = .inp c := by
  constructor
  · intro ht
    rcases (exec_effect h).state_cases with hsame | ⟨r, rfl⟩ | ⟨-, rfl⟩ | ⟨d, hi', rfl⟩
    · rw [hsame, hi] at ht; cases ht
    · cases ht
    · cases ht
    · cases ht; exact hi'
  · rintro rfl
    rw [exec_inp] at h
    cases h
    rfl

/-! ### The finger after an instruction (R125) -/

/-- The finger that an instruction which does not fail leaves. -/
def Instr.nextPc (i : Instr) (s : State) : Word :=
  match i with
  | .halt => s.pc
  | .inp _ => s.pc
  | .loadprog _ c => s.reg c
  | _ => s.pc + 1#32

theorem Instr.nextPc_of_dest {i : Instr} {r : Reg} (hd : i.dest = some r) (s : State) :
    Instr.nextPc i s = s.pc + 1#32 := by
  cases i with
  | halt | inp | loadprog => cases hd
  | _ => rfl

theorem ExecEffect.pc_cases {i : Instr} {s t : State} (h : ExecEffect i s t) :
    (∃ r, t = s.fail r) ∨ t.pc = Instr.nextPc i s := by
  cases h with
  | fails _ _ r => exact .inl ⟨r, rfl⟩
  | result _ _ _ _ hd => exact .inr (Instr.nextPc_of_dest hd s).symm
  | _ => exact .inr rfl

/-- A word that was fetched lies within array 0, whose length is a word (10_state.md R26). -/
theorem pc_lt_wordMax_of_fetch {s : State} {w : Word} (hs : s.heap.wf) (hf : s.fetch = .ok w) :
    s.pc.toNat < wordMax := by
  have hword : s.heap.word? 0 s.pc.toNat = some w := State.memRead_ok hf
  obtain ⟨a, ha, hget⟩ := Option.bind_eq_some_iff.1 hword
  obtain ⟨-, -, hlen⟩ := (Memory.wf_lookup hs ha).2
  have hlt : s.pc.toNat < a.length := by
    by_contra hge
    rw [WordArray.word?, if_neg hge] at hget
    cases hget
  exact hlt.trans_le hlen

/-! ### Registers, pending output, inputs and parameters after an instruction -/

theorem ExecEffect.reg_of_dest_ne {i : Instr} {s t : State} {r : Reg} (h : ExecEffect i s t)
    (hr : i.dest ≠ some r) : t.reg r = s.reg r := by
  have hne : ∀ q, i.dest = some q → r ≠ q := fun q hq hrq => hr (hrq ▸ hq)
  cases h with
  | result _ _ q v hd => exact s.reg_writeBack_ne v (hne q hd)
  | allocated b => exact State.reg_writeBack_ne _ _ (hne b rfl)
  | _ => rfl

theorem ExecEffect.outq_cases {i : Instr} {s t : State} (h : ExecEffect i s t) :
    t.outq = s.outq ∨
      ∃ c b, i = .out c ∧ b.toNat = (s.reg c).toNat ∧ t.outq = s.outq ++ [b] := by
  cases h with
  | output c _ b hb => exact .inr ⟨c, b, rfl, hb, rfl⟩
  | _ => exact .inl rfl

theorem ExecEffect.config_eq {i : Instr} {s t : State} (h : ExecEffect i s t) :
    t.config = s.config := by
  cases h <;> rfl

theorem ExecEffect.hostIn_eq {i : Instr} {s t : State} (h : ExecEffect i s t) :
    t.hostIn = s.hostIn := by
  cases h <;> rfl

/-! ### Failure, output and parameters after a step -/

theorem step_eq_fail {s t : State} {r : FailReason} (h : step s = .next t)
    (ht : t.state = .failed r) : t = { s with state := .failed r } := by
  cases step_effect h with
  | fetchFails => cases ht; rfl
  | executes _ w hi _ he => exact (exec_effect he).eq_fail hi ht
  | resumes => cases ht
  | unfed | terminal => rw [← ht]

theorem step_outq_cases {s t : State} (h : step s = .next t) :
    t.outq = s.outq ∨
      ∃ (w : Word) (c : Reg) (b : Byte), s.state = .idle ∧ s.fetch = .ok w ∧ decode w = .out c ∧
        b.toNat = (s.reg c).toNat ∧ t.outq = s.outq ++ [b] := by
  cases step_effect h with
  | executes _ w hi hf he =>
    rcases (exec_effect he).outq_cases with hsame | ⟨c, b, hout, hb, happ⟩
    · exact .inl hsame
    · exact .inr ⟨w, c, b, hi, hf, hout, hb, happ⟩
  | fetchFails | resumes | unfed | terminal => exact .inl rfl

theorem step_config {s t : State} (h : step s = .next t) : t.config = s.config := by
  cases step_effect h with
  | executes _ w _ _ he => exact (exec_effect he).config_eq
  | fetchFails | resumes | unfed | terminal => rfl

theorem step_hostIn {s t : State} (h : step s = .next t) :
    t.hostIn = s.hostIn ∨ ∃ c i, s.state = .waiting c ∧ s.hostIn = i :: t.hostIn := by
  cases step_effect h with
  | executes _ w _ _ he => exact .inl (exec_effect he).hostIn_eq
  | resumes c i rest hs hin => exact .inr ⟨c, i, hs, hin⟩
  | fetchFails | unfed | terminal => exact .inl rfl

/-! ### Runs of the model's step -/

/-- A machine that a step leaves as it is stays so for any number of steps. -/
theorem core_run_of_step_eq_self {M : Host.Core} {s : M.State} (h : M.step s = .next s) (k : Nat) :
    M.run k s = .next s := by
  induction k with
  | zero => rfl
  | succ k ih => rw [Host.Core.run, h]; exact ih

/-! ### The obligations -/

/-- Settles O29: from Idle a fetched word is dispatched, with nothing around it. -/
theorem stepRunsDecodedInstruction : Obligations.StepRunsDecodedInstruction := by
  unfold Obligations.StepRunsDecodedInstruction
  rintro s w i hi hf rfl
  exact step_of_fetch_ok hi hf

/-- Settles O26: the two sides of the transition out of Waiting. -/
theorem waitingStepSuppliesNextInput : Obligations.WaitingStepSuppliesNextInput := by
  unfold Obligations.WaitingStepSuppliesNextInput
  intro c s hs
  refine ⟨fun i rest hin => ?_, step_of_waiting_unfed hs⟩
  have hs' : ({ s with hostIn := rest } : State).state = .waiting c := hs
  rw [step_of_waiting_fed hs hin, supplyInput_of_waiting hs' i]

/-- Settles O32: an instruction per constructor, a step per state. -/
theorem everyStepHasNextState : Obligations.EveryStepHasNextState := by
  unfold Obligations.EveryStepHasNextState
  exact ⟨exec_next, step_next⟩

/-- Settles O33: the finger of `ExecEffect`, of the resumption, and the bound on a fetched finger. -/
theorem fingerUpdateRule : Obligations.FingerUpdateRule := by
  unfold Obligations.FingerUpdateRule
  refine ⟨fun i s t hi h => ⟨fun r ht => ?fails, fun hok => ?completes⟩, fun c s t i hs h => ?resumes,
    fun s w hs hf => ?noWrap⟩
  case fails => rw [(exec_effect h).eq_fail hi ht, State.fail_pc]
  case completes =>
    rcases (exec_effect h).pc_cases with ⟨r, rfl⟩ | hpc
    · exact absurd rfl (hok r)
    · rw [hpc]; rfl
  case resumes =>
    rw [supplyInput_of_waiting hs] at h
    cases h
    rfl
  case noWrap =>
    have hlt := pc_lt_wordMax_of_fetch hs hf
    simp only [wordMax] at hlt
    rw [BitVec.toNat_add, BitVec.toNat_ofNat]
    omega

/-- Settles O34: every effect writes back to the listed register or to none. -/
theorem onlyListedRegisterIsWritten : Obligations.OnlyListedRegisterIsWritten := by
  unfold Obligations.OnlyListedRegisterIsWritten
  exact fun _ _ _ _ h => (exec_effect h).reg_of_dest_ne

/-- Settles O37: OUT is the one effect that touches the pending output. -/
theorem outputGrowsInExecutionOrder : Obligations.OutputGrowsInExecutionOrder := by
  unfold Obligations.OutputGrowsInExecutionOrder
  exact fun _ _ => step_outq_cases

/-- Settles O38: a failure in the fetch or in the instruction is the shared operation `fail`. -/
theorem failingStepChangesOnlyState : Obligations.FailingStepChangesOnlyState := by
  unfold Obligations.FailingStepChangesOnlyState
  exact fun _ _ _ => step_eq_fail

/-- Settles O40: HALT and IN are the instructions that leave Idle without failing; outside Idle, one case per
state. -/
theorem stateMachineTransitions : Obligations.StateMachineTransitions := by
  unfold Obligations.StateMachineTransitions
  intro s t h
  refine ⟨fun w hi hf => ?idle, fun c hs => ?waiting, fun hs => ?halted, fun r hs => ?failed⟩
  case idle =>
    rw [step_of_fetch_ok hi hf] at h
    refine ⟨exec_state_halted_iff h hi, exec_state_waiting_iff h hi, ?_⟩
    cases t.state with
    | idle => exact .inl rfl
    | halted => exact .inr (.inl rfl)
    | waiting c => exact .inr (.inr (.inl ⟨c, rfl⟩))
    | failed r => exact .inr (.inr (.inr ⟨r, rfl⟩))
  case waiting =>
    cases hin : s.hostIn with
    | nil => rw [step_of_waiting_unfed hs hin] at h; cases h; exact .inr ⟨rfl, rfl⟩
    | cons i rest =>
      rw [step_of_waiting_fed hs hin] at h; cases h; exact .inl ⟨rfl, List.cons_ne_nil i rest⟩
  case halted => rw [step_of_terminal (.inl hs)] at h; cases h; rfl
  case failed => rw [step_of_terminal (.inr ⟨r, hs⟩)] at h; cases h; rfl

/-- Settles O41: a step from a terminal state answers the same state. -/
theorem terminalStatesAreNeverLeft : Obligations.TerminalStatesAreNeverLeft := by
  unfold Obligations.TerminalStatesAreNeverLeft
  intro s k hs
  exact core_run_of_step_eq_self (M := core) (step_of_terminal hs) k

/-- Settles O51: no instruction touches the parameters or the inputs; the resumption takes the first input. -/
theorem parametersNeverChange : Obligations.ParametersNeverChange := by
  unfold Obligations.ParametersNeverChange
  exact fun _ _ h => ⟨step_config h, step_hostIn h⟩

/-- Settles O60: a step adds at most one byte to the pending output, and none unless it runs an OUT. -/
theorem outputStaysWithinCapacityWhileRoom : Obligations.OutputStaysWithinCapacityWhileRoom := by
  unfold Obligations.OutputStaysWithinCapacityWhileRoom
  refine ⟨fun s t h hroom => ?room, fun s t h hs hnoOut => ?noOut,
    fun _ => State.withinOutputCapacity_of_unbounded⟩
  case room =>
    have hlen : t.outq.length ≤ s.outq.length + 1 := by
      rcases step_outq_cases h with hsame | ⟨_, _, b, -, -, -, -, happ⟩
      · rw [hsame]; exact Nat.le_succ _
      · rw [happ, List.length_append, List.length_singleton]
    rw [State.withinOutputCapacity, step_config h]
    exact withinLimit_mono hlen hroom
  case noOut =>
    rcases step_outq_cases h with hsame | ⟨w, c, _, hi, hf, hout, -, -⟩
    · rwa [State.withinOutputCapacity, step_config h, hsame]
    · exact absurd hout (hnoOut hi w c hf)

end Sys2Proof.Machine
end

section
/-!
PROOFS, 20_memory.md, canonical form. A list with rising keys is determined by its lookups, so an array in
canonical form is determined by its words and a heap by its arrays; an insert of a free key is undone by an
erase. Then the instructions keep the lengths of the arrays they do not replace.
-/

namespace Sys2Proof.Machine

/-! ### Lists of pairs by key -/

section Keys

variable {α : Type} {l l' : List (Nat × α)}

theorem mem_iff_lookupKey (hl : KeysRising l) (p : Nat × α) :
    p ∈ l ↔ lookupKey l p.1 = some p.2 :=
  ⟨lookupKey_of_mem hl, lookupKey_mem⟩

theorem nodup_of_keysRising (hl : KeysRising l) : l.Nodup :=
  hl.imp fun hlt => ne_of_apply_ne Prod.fst hlt.ne

/-- Lists with rising keys and the same lookups are equal: same members, in the one possible order. -/
theorem keysRising_ext (hl : KeysRising l) (hl' : KeysRising l')
    (h : ∀ q, lookupKey l q = lookupKey l' q) : l = l' := by
  have hmem : ∀ p, p ∈ l ↔ p ∈ l' := fun p => by
    rw [mem_iff_lookupKey hl, mem_iff_lookupKey hl', h]
  have hperm : l.Perm l' :=
    (List.perm_ext_iff_of_nodup (nodup_of_keysRising hl) (nodup_of_keysRising hl')).2 hmem
  exact hperm.eq_of_pairwise (fun _ _ _ _ h1 h2 => absurd h2 h1.asymm) hl hl'

/-- Erasing a key that was just listed for the first time gives the list back. -/
theorem eraseKey_insertKey_of_free {q : Nat} (v : α) (hl : KeysRising l)
    (hq : lookupKey l q = none) : eraseKey (insertKey l q v) q = l := by
  refine keysRising_ext (keysRising_eraseKey (keysRising_insertKey hl q v) q) hl fun r => ?_
  rw [lookupKey_eraseKey, lookupKey_insertKey]
  by_cases hr : r = q
  · rw [if_pos hr, hr, hq]
  · rw [if_neg hr, if_neg hr]

end Keys

/-! ### Arrays and heaps (log 5) -/

/-- What an array in canonical form lists is its non-zero words, each at its offset. -/
theorem WordArray.lookupKey_cells_eq_some_iff {a : WordArray} (ha : a.wf) (o : Nat) (v : Word) :
    lookupKey a.cells o = some v ↔ a.words[o]? = some v ∧ v ≠ unlistedWord := by
  obtain ⟨-, hcells, -⟩ := ha
  rw [WordArray.getElem?_words, WordArray.word?, WordArray.cell]
  constructor
  · intro h
    obtain ⟨hlt, hne⟩ := hcells _ (lookupKey_mem h)
    rw [if_pos hlt, h, Option.getD_some]
    exact ⟨rfl, hne⟩
  · rintro ⟨hword, hne⟩
    split at hword
    · cases hlook : lookupKey a.cells o with
      | none => rw [hlook] at hword; exact absurd (Option.some.inj hword).symm hne
      | some u => rw [hlook] at hword; exact hword
    · cases hword

theorem WordArray.words_injective {a b : WordArray} (ha : a.wf) (hb : b.wf)
    (h : a.words = b.words) : a = b := by
  have hlength : a.length = b.length := by rw [← a.words_length, h, b.words_length]
  have hcells : a.cells = b.cells := by
    refine keysRising_ext ha.1 hb.1 fun o => Option.ext fun v => ?_
    rw [WordArray.lookupKey_cells_eq_some_iff ha, WordArray.lookupKey_cells_eq_some_iff hb, h]
  cases a
  cases b
  congr

theorem Memory.array?_injective {m m' : Memory} (hm : m.wf) (hm' : m'.wf)
    (h : ∀ k, m.array? k = m'.array? k) : m = m' := by
  refine keysRising_ext hm.1 hm'.1 fun k => ?_
  have hk := h k
  simp only [Memory.array?] at hk
  cases ha : lookupKey m k with
  | none => rw [ha] at hk; exact (Option.map_eq_none_iff.1 hk.symm).symm
  | some a =>
    rw [ha] at hk
    obtain ⟨b, hb, hwords⟩ := Option.map_eq_some_iff.1 hk.symm
    rw [hb, WordArray.words_injective (Memory.wf_lookup hm ha).2 (Memory.wf_lookup hm' hb).2
      hwords.symm]

/-! ### Lengths (20_memory.md R53) -/

theorem Memory.length?_insertKey (m : Memory) (q h : Nat) (a : WordArray) :
    Memory.length? (insertKey m q a) h = if h = q then some a.length else m.length? h := by
  simp only [Memory.length?, lookupKey_insertKey]
  split <;> rfl

theorem Memory.length?_eraseKey (m : Memory) (q h : Nat) :
    Memory.length? (eraseKey m q) h = if h = q then none else m.length? h := by
  simp only [Memory.length?, lookupKey_eraseKey]
  split <;> rfl

/-- An array that is live before and after keeps its length, but for array 0 under LOADPROG: AMEND rewrites
an array of its own length, ALLOC lists a handle that was free, ABANDON leaves nothing to compare. -/
theorem ExecEffect.length?_cases {i : Instr} {s t : State} {h n m : Nat} (he : ExecEffect i s t)
    (hs : s.heap.wf) (hn : s.heap.length? h = some n) (hm : t.heap.length? h = some m) :
    m = n ∨ h = 0 ∧ ∃ b c, i = .loadprog b c ∧ s.reg b ≠ 0#32 := by
  cases he with
  | result | skip | fails | halted | output | waits | jumped =>
    exact .inl (Option.some.inj (hm.symm.trans hn))
  | stored a b c _ x hx =>
    rw [State.advance_heap, State.setHeap_heap, Memory.length?_insertKey] at hm
    split at hm
    · next hh =>
      rw [hh, Memory.length?, hx] at hn
      exact .inl (Option.some.inj (hm.symm.trans hn))
    · exact .inl (Option.some.inj (hm.symm.trans hn))
  | allocated =>
    rw [State.writeBack_heap, State.setHeap_heap, Memory.length?_insertKey] at hm
    split at hm
    · next hh =>
      rw [hh, Memory.length?, Memory.lookupKey_firstFree hs] at hn
      cases hn
    · exact .inl (Option.some.inj (hm.symm.trans hn))
  | freed =>
    rw [State.advance_heap, State.setHeap_heap, Memory.length?_eraseKey] at hm
    split at hm
    · cases hm
    · exact .inl (Option.some.inj (hm.symm.trans hn))
  | replaced b c _ x h0 =>
    rw [State.setPc_heap, State.setHeap_heap, Memory.length?_insertKey] at hm
    split at hm
    · next hh => exact .inr ⟨hh, b, c, rfl, h0⟩
    · exact .inl (Option.some.inj (hm.symm.trans hn))

/-! ### The obligations -/

/-- Settles O46: the same arrays make the same lookups, and these determine the lists. -/
theorem equalArraysMakeEqualHeaps : Obligations.EqualArraysMakeEqualHeaps := by
  unfold Obligations.EqualArraysMakeEqualHeaps
  exact fun _ _ => Memory.array?_injective

/-- Settles O45: by cases on the effect, of which LOADPROG alone lists an array of another length. -/
theorem arrayLengthsAreFixed : Obligations.ArrayLengthsAreFixed := by
  unfold Obligations.ArrayLengthsAreFixed
  intro i s t h n m hs hexec hn hm hne
  exact ((exec_effect hexec).length?_cases hs hn hm).resolve_left hne

end Sys2Proof.Machine
end

section
/-!
PROOFS, the invariants. Each of the three is kept by every effect of an instruction, so by every step; and
the machine that create makes, of which the reset state is one, has them.
-/

namespace Sys2Proof.Machine

/-! ### The canonical heap and array 0 (20_memory.md R51) -/

theorem handleAvailable_iff {c : Config} {m : Memory} :
    handleAvailable c m = true ↔ m.firstFree ≤ wordMax ∧ m.liveHandles < c.maxLiveHandles := by
  simp only [handleAvailable, Bool.and_eq_true, decide_eq_true_eq]

theorem ExecEffect.heap_wf {i : Instr} {s t : State} (h : ExecEffect i s t) (hs : s.heap.wf) :
    t.heap.wf := by
  cases h with
  | result | skip | fails | halted | output | waits | jumped => exact hs
  | stored a b c _ x hx ho =>
    exact Memory.wf_insertKey hs (toNat_le_wordMax _)
      (WordArray.wf_write (Memory.wf_lookup hs hx).2 ho _)
  | allocated b c _ _ hh =>
    exact Memory.wf_insertKey hs (handleAvailable_iff.1 hh).1
      (WordArray.wf_zeros (toNat_le_wordMax _))
  | freed => exact Memory.wf_eraseKey hs _
  | replaced b c _ x _ hx =>
    exact Memory.wf_insertKey hs (Nat.zero_le _) (Memory.wf_lookup hs hx).2

theorem Memory.live_zero_insertKey {m : Memory} (hm : m.live 0 = true) (q : Nat) (a : WordArray) :
    Memory.live (insertKey m q a) 0 = true := by
  rw [Memory.live_insertKey, hm, Bool.or_true]

/-- ABANDON frees a handle other than 0, and no other instruction frees any. -/
theorem ExecEffect.live_zero {i : Instr} {s t : State} (h : ExecEffect i s t)
    (hs : s.heap.live 0 = true) : t.heap.live 0 = true := by
  cases h with
  | result | skip | fails | halted | output | waits | jumped => exact hs
  | stored | allocated | replaced => exact Memory.live_zero_insertKey hs _ _
  | freed c _ x h0 =>
    have hne := zero_ne_toNat h0
    rw [State.advance_heap, State.setHeap_heap, Memory.live_eraseKey, hs, decide_eq_false hne]
    rfl

theorem ExecEffect.wf {i : Instr} {s t : State} (h : ExecEffect i s t) (hs : s.wf) : t.wf := by
  obtain ⟨hheap, hlive, hmax⟩ := hs
  exact ⟨h.heap_wf hheap, h.live_zero hlive, by rwa [h.config_eq]⟩

/-! ### The capacities (00_scope.md R10) -/

theorem Memory.programLength_of_lookupKey {m : Memory} {p : WordArray} (hp : lookupKey m 0 = some p) :
    m.programLength = p.length := by
  rw [Memory.programLength, Memory.length?, hp, Option.map_some, Option.getD_some]

/-- ALLOC and LOADPROG check the words they add; AMEND and ABANDON add none. -/
theorem ExecEffect.fitsCapacity {i : Instr} {s t : State} (h : ExecEffect i s t) (hs : s.wf)
    (hfit : fitsCapacity s.config s.heap.usedWords = true) :
    fitsCapacity s.config t.heap.usedWords = true := by
  obtain ⟨⟨hrise, -⟩, hlive, -⟩ := hs
  cases h with
  | result | skip | fails | halted | output | waits | jumped => exact hfit
  | stored a b c _ x hx =>
    have hsum := Memory.usedWords_insertKey_live hrise (x.write (s.reg b).toNat (s.reg c)) hx
    rw [WordArray.write_length] at hsum
    rwa [State.advance_heap, State.setHeap_heap, Nat.add_right_cancel hsum]
  | allocated b c _ hf =>
    have hfree : lookupKey s.heap s.heap.firstFree = none := lookupKey_firstGap hrise 1
    rwa [State.writeBack_heap, State.setHeap_heap, Memory.usedWords_insertKey_free _ hfree,
      WordArray.zeros_length, Nat.add_comm]
  | freed c _ x _ hx =>
    have hsum := Memory.usedWords_eraseKey hrise hx
    exact withinLimit_mono (Nat.le_of_add_right_le hsum.le) hfit
  | replaced b c _ x _ _ hc =>
    obtain ⟨p, hp⟩ := Option.isSome_iff_exists.1 hlive
    have hsum := Memory.usedWords_insertKey_live hrise x hp
    rw [Memory.programLength_of_lookupKey hp] at hc
    refine fitsCapacity_iff.2 fun cap hcap => ?_
    have hroom := hc cap hcap
    rw [State.setPc_heap, State.setHeap_heap]
    omega

/-- ALLOC checks the handle it issues; no other instruction makes a handle live. -/
theorem ExecEffect.liveHandles_le {i : Instr} {s t : State} (h : ExecEffect i s t) (hs : s.wf)
    (hmax : s.heap.liveHandles ≤ s.config.maxLiveHandles) :
    t.heap.liveHandles ≤ s.config.maxLiveHandles := by
  obtain ⟨⟨hrise, -⟩, hlive, -⟩ := hs
  cases h with
  | result | skip | fails | halted | output | waits | jumped => exact hmax
  | stored a b c _ x hx =>
    rwa [State.advance_heap, State.setHeap_heap, Memory.liveHandles_insertKey_live hrise _ hx]
  | allocated b c _ _ hh =>
    have hfree : lookupKey s.heap s.heap.firstFree = none := lookupKey_firstGap hrise 1
    have hne : s.heap.firstFree ≠ 0 := Nat.one_le_iff_ne_zero.1 s.heap.one_le_firstFree
    rw [State.writeBack_heap, State.setHeap_heap, Memory.liveHandles_insertKey_free _ hne hfree]
    exact (handleAvailable_iff.1 hh).2
  | freed => exact (Memory.liveHandles_eraseKey_le _ _).trans hmax
  | replaced b c _ x =>
    obtain ⟨p, hp⟩ := Option.isSome_iff_exists.1 hlive
    rwa [State.setPc_heap, State.setHeap_heap, Memory.liveHandles_insertKey_live hrise x hp]

theorem ExecEffect.withinCapacity {i : Instr} {s t : State} (h : ExecEffect i s t) (hs : s.wf)
    (hcap : s.withinCapacity) : t.withinCapacity := by
  rw [State.withinCapacity, h.config_eq]
  exact ⟨h.fitsCapacity hs hcap.1, h.liveHandles_le hs hcap.2⟩

/-! ### Every step keeps the three -/

theorem step_wf {s t : State} (hs : s.wf) (h : step s = .next t) : t.wf := by
  cases step_effect h with
  | executes _ w _ _ he => exact (exec_effect he).wf hs
  | fetchFails | resumes | unfed | terminal => exact hs

theorem step_withinCapacity {s t : State} (hs : s.wf) (hcap : s.withinCapacity)
    (h : step s = .next t) : t.withinCapacity := by
  cases step_effect h with
  | executes _ w _ _ he => exact (exec_effect he).withinCapacity hs hcap
  | fetchFails | resumes | unfed | terminal => exact hcap

theorem State.waitingLatch_of_idle {s : State} (hs : s.state = .idle) : s.waitingLatch :=
  fun c hc => by rw [hs] at hc; cases hc

/-- IN changes neither the finger nor array 0, so the word fetched is still there while it waits. -/
theorem step_waitingLatch {s t : State} (hs : s.waitingLatch) (h : step s = .next t) :
    t.waitingLatch := by
  cases step_effect h with
  | fetchFails r => exact nofun
  | executes _ w hi hf he =>
    intro c hc
    have hin : decode w = .inp c := (exec_state_waiting_iff he hi c).1 hc
    rw [hin, exec_inp] at he
    cases he
    exact ⟨w, hf, hin⟩
  | resumes => exact State.waitingLatch_of_idle rfl
  | unfed | terminal => exact hs

/-! ### The machine that create makes (70_reset_and_hazards.md R250, R253) -/

theorem State.fresh_reg (c : Config) (ws : List Word) (r : Reg) : (State.fresh c ws).reg r = 0#32 :=
  Vector.getElem_replicate r.isLt

theorem State.fresh_array?_of_ne_zero (c : Config) (ws : List Word) {h : Nat} (hh : h ≠ 0) :
    (State.fresh c ws).heap.array? h = none := by
  simp only [State.fresh, Memory.array?, lookupKey, if_neg hh.symm, Option.map_none]

theorem State.fresh_wf {c : Config} {ws : List Word} (hc : c.maxLiveHandles ≤ wordMax)
    (hws : ws.length ≤ wordMax) : (State.fresh c ws).wf := by
  refine ⟨⟨List.pairwise_singleton _ _, fun p hp => ?_⟩, rfl, hc⟩
  rw [List.mem_singleton.1 hp]
  exact ⟨Nat.zero_le _, WordArray.wf_ofWords hws⟩

theorem State.fresh_withinCapacity {c : Config} {ws : List Word}
    (hws : fitsCapacity c ws.length = true) : (State.fresh c ws).withinCapacity :=
  ⟨hws, Nat.zero_le _⟩

theorem create_meets_invariants {c : Config} {image : List Byte} {s : State}
    (hc : c.maxLiveHandles ≤ wordMax) (h : create c image = .next s) :
    s.wf ∧ s.withinCapacity ∧ s.waitingLatch := by
  obtain ⟨-, hlen, hfits, rfl⟩ := create_eq_next_iff.1 h
  rw [← imageWords_length] at hlen hfits
  exact ⟨State.fresh_wf hc hlen, State.fresh_withinCapacity hfits, State.waitingLatch_of_idle rfl⟩

theorem create_of_partial_word {c : Config} {image : List Byte} (h : image.length % 4 ≠ 0) :
    create c image = .refused .imageNotWholeWords := if_pos h

theorem create_of_too_long {c : Config} {image : List Byte} (h : image.length % 4 = 0)
    (hlen : wordMax < image.length / 4) : create c image = .refused .imageTooLong := by
  rw [create, if_neg (not_not.2 h), if_pos hlen]

theorem create_of_exceeds_capacity {c : Config} {image : List Byte} {cap : Nat}
    (h : image.length % 4 = 0) (hlen : image.length / 4 ≤ wordMax)
    (hcap : c.heapCapacityWords = some cap) (hlt : cap < image.length / 4) :
    create c image = .refused .imageExceedsCapacity := by
  have hfull : ¬ fitsCapacity c (image.length / 4) = true := fun hfits =>
    Nat.not_le.2 hlt (fitsCapacity_iff.1 hfits cap hcap)
  rw [create, if_neg (not_not.2 h), if_neg (Nat.not_lt.2 hlen), if_neg hfull]

/-- The reset state is the fresh machine of no words. -/
theorem State.reset_eq_fresh : State.reset = State.fresh Config.unbounded [] := rfl

/-! ### The obligations -/

/-- Settles O47: every effect keeps the canonical form and array 0, and no step changes the parameters. -/
theorem stepKeepsWellFormedHeap : Obligations.StepKeepsWellFormedHeap := by
  unfold Obligations.StepKeepsWellFormedHeap
  exact fun _ _ => step_wf

/-- Settles O48: the sum of lengths and the number of live handles after every effect. -/
theorem stepKeepsWithinCapacity : Obligations.StepKeepsWithinCapacity := by
  unfold Obligations.StepKeepsWithinCapacity
  exact fun _ _ => step_withinCapacity

/-- Settles O49: Waiting is entered by IN alone, which leaves the fetched word where it is. -/
theorem stepKeepsWaitingLatch : Obligations.StepKeepsWaitingLatch := by
  unfold Obligations.StepKeepsWaitingLatch
  exact fun _ _ => step_waitingLatch

/-- Settles O50: the reset state is what create makes of the empty image. -/
theorem resetMeetsInvariants : Obligations.ResetMeetsInvariants := by
  unfold Obligations.ResetMeetsInvariants
  exact create_meets_invariants (c := Config.unbounded) (Nat.le_refl _) create_empty

/-- Settles O53: an image within R253's bounds is accepted, and the fresh machine has these values. -/
theorem createGivesResetValues : Obligations.CreateGivesResetValues := by
  unfold Obligations.CreateGivesResetValues
  intro c image hwhole hlen hcap
  have hfits : fitsCapacity c (image.length / 4) = true :=
    fitsCapacity_iff.2 fun cap hc => Nat.not_lt.1 fun hlt => hcap ⟨cap, hc, hlt⟩
  have hlive : (State.fresh c (imageWords image)).heap.array? 0 ≠ none := by
    rw [State.fresh_array?_zero]
    exact Option.some_ne_none _
  exact ⟨_, create_eq_next_iff.2 ⟨hwhole, hlen, hfits, rfl⟩, State.fresh_reg c _, rfl, hlive,
    fun _ => State.fresh_array?_of_ne_zero c _, rfl, rfl, rfl⟩

/-- Settles O54: the three refusals, and the invariants of the fresh machine. -/
theorem createRefusesOrMeetsInvariants : Obligations.CreateRefusesOrMeetsInvariants := by
  unfold Obligations.CreateRefusesOrMeetsInvariants
  exact fun _ _ => ⟨create_of_partial_word, create_of_too_long, fun _ => create_of_exceeds_capacity,
    fun _ => create_meets_invariants⟩

/-- Settles O55: the fresh machine of no words, whose array 0 has no word to fetch. -/
theorem resetIsEmptyMachine : Obligations.ResetIsEmptyMachine := by
  unfold Obligations.ResetIsEmptyMachine
  rw [State.reset_eq_fresh]
  have hempty : (State.fresh Config.unbounded []).heap.array? 0 = some [] :=
    State.fresh_array?_zero _ _
  have hbounds : OutOfBounds (State.fresh Config.unbounded []) 0#32 0#32 := fun ws hws => by
    rw [Option.some.inj (hws.symm.trans hempty)]
    exact Nat.le_refl 0
  exact ⟨State.fresh_reg _ _, rfl, hempty, fun _ => State.fresh_array?_of_ne_zero _ _, rfl, rfl,
    step_of_fetch_error rfl (State.memRead_of_outOfBounds hbounds)⟩

end Sys2Proof.Machine
end

section
/-!
PROOFS, 44_heap_ops.md and 43_control.md. Allocate, Free and ReplaceProgram in the terms of the statements:
where each answers and what, and where it fails and why. ALLOC, ABANDON and LOADPROG follow, then jumps.
-/

namespace Sys2Proof.Machine

/-! ### The terms of the statements -/

theorem Memory.array?_eq_none_iff {m : Memory} {h : Nat} :
    m.array? h = none ↔ lookupKey m h = none := Option.map_eq_none_iff

theorem exceedsCapacity_iff {s : State} {n : Nat} :
    ExceedsCapacity s n ↔ fitsCapacity s.config n = false := by
  rw [← Bool.not_eq_true, fitsCapacity_iff]
  simp only [ExceedsCapacity, not_forall, Nat.not_le, exists_prop]

/-- Some non-zero handle is free exactly when the smallest free one is a word (20_memory.md R56). -/
theorem handleFree_iff {s : State} (hs : s.heap.wf) :
    HandleFree s ↔ handleAvailable s.config s.heap = true := by
  rw [handleAvailable_iff, HandleFree, and_congr_left_iff]
  intro _
  constructor
  · rintro ⟨h, h1, hmax, hfree⟩
    by_contra hgt
    have hlive := Memory.live_of_lt_firstFree hs h1 (by omega)
    rw [Memory.live_eq, hfree] at hlive
    cases hlive
  · intro hle
    exact ⟨s.heap.firstFree, s.heap.one_le_firstFree, hle,
      Memory.array?_eq_none_iff.2 (Memory.lookupKey_firstFree hs)⟩

/-! ### Allocate (20_memory.md R54) -/

theorem State.allocate_of_fits {s : State} {n : Word}
    (hfit : fitsCapacity s.config (n.toNat + s.heap.usedWords) = true)
    (havail : handleAvailable s.config s.heap = true) :
    s.allocate n = .ok (BitVec.ofNat 32 s.heap.firstFree,
      s.setHeap (insertKey s.heap s.heap.firstFree (WordArray.zeros n.toNat))) := by
  rw [State.allocate, hfit, havail, Bool.and_self, if_pos rfl]

theorem State.allocate_error_iff {s : State} {n : Word} (hs : s.heap.wf) {r : FailReason} :
    s.allocate n = .error r ↔
      (ExceedsCapacity s (n.toNat + s.heap.usedWords) ∨ ¬ HandleFree s) ∧
        r = .resourceExhausted := by
  rw [exceedsCapacity_iff, handleFree_iff hs, Bool.not_eq_true]
  rcases s.allocate_cases n with ⟨hfit, havail, he⟩ | ⟨hno, he⟩
  · simp only [he, hfit, havail, reduceCtorEq, or_self, false_and]
  · rw [he, Except.error.injEq, and_iff_right hno, eq_comm]

/-- The number of the smallest free handle fits in a word where one is free. -/
theorem Memory.firstFree_toNat {m : Memory} (h : m.firstFree ≤ wordMax) :
    (BitVec.ofNat 32 m.firstFree).toNat = m.firstFree := by
  simp only [wordMax] at h
  rw [BitVec.toNat_ofNat]
  exact Nat.mod_eq_of_lt (by omega)

/-- Every smaller non-zero handle is in use. -/
theorem Memory.array?_of_lt_firstFree {m : Memory} (hm : m.wf) {k : Nat} (h1 : 1 ≤ k)
    (hk : k < m.firstFree) : m.array? k ≠ none := by
  have hlive := Memory.live_of_lt_firstFree hm h1 hk
  rw [Memory.live_eq] at hlive
  exact Option.isSome_iff_ne_none.1 hlive

/-! ### Free (20_memory.md R55) -/

theorem State.free_of_live {s : State} {h : Word} (h0 : h ≠ 0#32)
    (hlive : s.heap.array? h.toNat ≠ none) :
    s.free h = .ok (s.setHeap (eraseKey s.heap h.toNat)) := by
  rcases s.free_cases h with ⟨-, -, he⟩ | ⟨hno, -⟩
  · exact he
  · exact absurd (hno.resolve_left h0) (mt Memory.array?_eq_none_iff.2 hlive)

theorem State.free_error_iff {s : State} {h : Word} {r : FailReason} :
    s.free h = .error r ↔ (h = 0#32 ∨ s.heap.array? h.toNat = none) ∧ r = .invalidAbandon := by
  rw [Memory.array?_eq_none_iff]
  rcases s.free_cases h with ⟨h0, ⟨a, ha⟩, he⟩ | ⟨hno, he⟩
  · simp only [he, h0, ha, reduceCtorEq, or_self, false_and]
  · rw [he, Except.error.injEq, and_iff_right hno, eq_comm]

/-! ### ReplaceProgram (20_memory.md R59) -/

/-- One array is no longer than all of them together. -/
theorem Memory.length_le_usedWords {m : Memory} {h : Nat} {a : WordArray}
    (ha : lookupKey m h = some a) : a.length ≤ m.usedWords := by
  induction m with
  | nil => cases ha
  | cons p rest ih =>
    obtain ⟨k, u⟩ := p
    simp only [lookupKey] at ha
    simp only [Memory.usedWords]
    split at ha
    · cases ha; exact Nat.le_add_right _ _
    · exact (ih ha).trans (Nat.le_add_left _ _)

/-- R59's test as it stands there: the words in use, without the old program and with the copy. -/
theorem exceedsCapacity_copy_iff {s : State} {a : WordArray} {p : List Word}
    (hp : s.heap.array? 0 = some p) :
    ExceedsCapacity s (a.words.length + s.heap.usedWords - p.length) ↔
      ∃ cap, s.config.heapCapacityWords = some cap ∧
        cap + s.heap.programLength < a.length + s.heap.usedWords := by
  obtain ⟨old, hold, rfl⟩ := Memory.array?_eq_some_iff.1 hp
  have hle := Memory.length_le_usedWords hold
  rw [ExceedsCapacity, Memory.programLength_of_lookupKey hold, old.words_length, a.words_length]
  refine exists_congr fun cap => and_congr_right fun _ => ?_
  omega

theorem State.replaceProgram_of_fits {s : State} {h : Word} {ws p : List Word}
    (hws : s.heap.array? h.toNat = some ws) (hp : s.heap.array? 0 = some p)
    (hfit : ¬ ExceedsCapacity s (ws.length + s.heap.usedWords - p.length)) :
    ∃ a : WordArray, a.words = ws ∧
      s.replaceProgram h = .ok (s.setHeap (insertKey s.heap 0 a)) := by
  obtain ⟨a, ha, rfl⟩ := Memory.array?_eq_some_iff.1 hws
  rw [exceedsCapacity_copy_iff hp] at hfit
  rcases s.replaceProgram_cases h with ⟨b, hb, -, he⟩ | ⟨hnone, -⟩ | ⟨b, cap, hb, hcap, hlt, -⟩
  · obtain rfl : a = b := Option.some.inj (ha.symm.trans hb)
    exact ⟨a, rfl, he⟩
  · rw [ha] at hnone; cases hnone
  · obtain rfl : a = b := Option.some.inj (ha.symm.trans hb)
    exact absurd ⟨cap, hcap, hlt⟩ hfit

theorem State.replaceProgram_of_free {s : State} {h : Word} (hfree : s.heap.array? h.toNat = none) :
    s.replaceProgram h = .error .outOfBoundsAccess := by
  rw [State.replaceProgram, Memory.array?_eq_none_iff.1 hfree]

theorem State.replaceProgram_of_exceeds {s : State} {h : Word} {ws p : List Word}
    (hws : s.heap.array? h.toNat = some ws) (hp : s.heap.array? 0 = some p)
    (hex : ExceedsCapacity s (ws.length + s.heap.usedWords - p.length)) :
    s.replaceProgram h = .error .resourceExhausted := by
  obtain ⟨a, ha, rfl⟩ := Memory.array?_eq_some_iff.1 hws
  obtain ⟨cap, hcap, hlt⟩ := (exceedsCapacity_copy_iff hp).1 hex
  simp only [State.replaceProgram, ha, hcap, if_pos hlt]

/-! ### ALLOC -/

theorem exec_alloc_of_fits {s : State} (b c : Reg)
    (hfit : fitsCapacity s.config ((s.reg c).toNat + s.heap.usedWords) = true)
    (havail : handleAvailable s.config s.heap = true) :
    exec (.alloc b c) s = .next
      ((s.setHeap (insertKey s.heap s.heap.firstFree (WordArray.zeros (s.reg c).toNat))).writeBack b
        (BitVec.ofNat 32 s.heap.firstFree)) := by
  rw [exec_alloc, s.attempt_of_ok _ (State.allocate_of_fits hfit havail)]

/-- ALLOC that does not fail found room and a handle, and what it leaves. -/
theorem exec_alloc_idle {b c : Reg} {s t : State} (h : exec (.alloc b c) s = .next t)
    (hi : t.state = .idle) :
    fitsCapacity s.config ((s.reg c).toNat + s.heap.usedWords) = true ∧
      handleAvailable s.config s.heap = true ∧ t.reg b = BitVec.ofNat 32 s.heap.firstFree ∧
      t.heap = insertKey s.heap s.heap.firstFree (WordArray.zeros (s.reg c).toNat) ∧
      t.config = s.config ∧ ∀ q, q ≠ b → t.reg q = s.reg q := by
  rcases s.allocate_cases (s.reg c) with ⟨hfit, havail, -⟩ | ⟨-, he⟩
  · rw [exec_alloc_of_fits b c hfit havail] at h
    cases h
    exact ⟨hfit, havail, State.reg_writeBack_self .., rfl, rfl, fun _ => State.reg_writeBack_ne _ _⟩
  · rw [exec_alloc, s.attempt_of_error _ he] at h
    cases h
    cases hi

/-- Freeing the handle that ALLOC issued gives the heap before it back, as data. -/
theorem State.free_of_firstFree {s t : State} {a : WordArray} (hs : s.heap.wf)
    (hmax : s.heap.firstFree ≤ wordMax) (ht : t.heap = insertKey s.heap s.heap.firstFree a) :
    t.free (BitVec.ofNat 32 s.heap.firstFree) = .ok (t.setHeap s.heap) := by
  have hhandle := Memory.firstFree_toNat hmax
  have hne : BitVec.ofNat 32 s.heap.firstFree ≠ 0#32 := by
    refine BitVec.toNat_ne.2 ?_
    rw [hhandle]
    exact Nat.one_le_iff_ne_zero.1 s.heap.one_le_firstFree
  have hlive : t.heap.array? (BitVec.ofNat 32 s.heap.firstFree).toNat ≠ none := by
    rw [hhandle, ht, Memory.array?_insertKey, if_pos rfl]
    exact Option.some_ne_none _
  rw [State.free_of_live hne hlive, hhandle, ht,
    eraseKey_insertKey_of_free a hs.1 (Memory.lookupKey_firstFree hs)]

/-! ### Jumps (43_control.md R182, R183) -/

/-- A machine that a step leaves as it is reaches no other state. -/
theorem eq_of_reaches_of_step_eq_self {s t : State} (hstep : step s = .next s) (h : Reaches s t) :
    t = s := by
  induction h with
  | refl => rfl
  | tail _ htu ih =>
    rw [ih, hstep] at htu
    cases htu
    rfl

theorem step_of_jump_to_itself {s : State} {w : Word} {b c : Reg} (hi : s.state = .idle)
    (hf : s.fetch = .ok w) (hw : decode w = .loadprog b c) (hb : s.reg b = 0#32)
    (hc : s.reg c = s.pc) : step s = .next s := by
  rw [step_of_fetch_ok hi hf, hw, exec_loadprog_jump hb, hc]
  rfl

/-! ### The obligations -/

/-- Settles O20: the handle is the first gap of the rising handles; the failure is that of Allocate. -/
theorem allocIssuesSmallestFreeHandle : Obligations.AllocIssuesSmallestFreeHandle := by
  unfold Obligations.AllocIssuesSmallestFreeHandle
  refine ⟨fun _ hw => decode_alloc (opcodeField_of_match hw), fun b c s hs => ?_⟩
  refine ⟨fun hwords hhandle => ?issues, fun hno => ?fails⟩
  case issues =>
    have hfit : fitsCapacity s.config ((s.reg c).toNat + s.heap.usedWords) = true :=
      Bool.of_not_eq_false (mt exceedsCapacity_iff.2 hwords)
    have havail := (handleFree_iff hs).1 hhandle
    have hmax := (handleAvailable_iff.1 havail).1
    obtain ⟨hregs, hpc, hstate, -, hhost⟩ := (s.setHeap (insertKey s.heap s.heap.firstFree
      (WordArray.zeros (s.reg c).toNat))).writeBack_frame b (BitVec.ofNat 32 s.heap.firstFree)
    refine ⟨_, s.heap.firstFree, exec_alloc_of_fits b c hfit havail, s.heap.one_le_firstFree,
      Memory.array?_eq_none_iff.2 (Memory.lookupKey_firstFree hs),
      fun _ => Memory.array?_of_lt_firstFree hs, ?handle, ?array, fun k hk => ?others,
      hregs, hpc, hstate, hhost⟩
    case handle => rw [State.reg_writeBack_self, Memory.firstFree_toNat hmax]
    case array =>
      rw [State.writeBack_heap, State.setHeap_heap, Memory.array?_insertKey, if_pos rfl,
        WordArray.words_zeros]
    case others =>
      rw [State.writeBack_heap, State.setHeap_heap, Memory.array?_insertKey, if_neg hk]
  case fails =>
    rw [exec_alloc]
    exact s.attempt_of_error _ ((State.allocate_error_iff hs).2 ⟨hno, rfl⟩)

/-- Settles O21: ABANDON frees through Free, or takes its exception. -/
theorem abandonFreesHandleOrFails : Obligations.AbandonFreesHandleOrFails := by
  unfold Obligations.AbandonFreesHandleOrFails
  refine ⟨fun _ hw => decode_abandon (opcodeField_of_match hw), fun c s => ?_⟩
  rw [exec_abandon]
  refine ⟨fun h0 hlive => ?frees, fun hno => ?fails⟩
  case frees =>
    refine ⟨_, s.attempt_of_ok _ (State.free_of_live h0 hlive), ?freed, fun k hk => ?others,
      fun _ _ => rfl, rfl, rfl, rfl, rfl, rfl⟩
    case freed => rw [State.advance_heap, State.setHeap_heap, Memory.array?_eraseKey, if_pos rfl]
    case others => rw [State.advance_heap, State.setHeap_heap, Memory.array?_eraseKey, if_neg hk]
  case fails => exact s.attempt_of_error _ (State.free_error_iff.2 ⟨hno, rfl⟩)

/-- Settles O22: the erase undoes the insert as data, so the second ALLOC starts from the first one's heap,
size and parameters. -/
theorem abandonedHandleIsReissued : Obligations.AbandonedHandleIsReissued := by
  unfold Obligations.AbandonedHandleIsReissued
  intro b c s t hs hi hbc halloc hidle
  obtain ⟨hfit, havail, hb, hheap, hconfig, hregs⟩ := exec_alloc_idle halloc hidle
  have hfreed : exec (.abandon b) t = .next (t.setHeap s.heap).advance := by
    rw [exec_abandon, hb,
      t.attempt_of_ok _ (State.free_of_firstFree hs (handleAvailable_iff.1 havail).1 hheap)]
  have hc : (t.setHeap s.heap).advance.reg c = s.reg c := hregs c hbc.symm
  have hconfig' : (t.setHeap s.heap).advance.config = s.config := hconfig
  have hagain := exec_alloc_of_fits (s := (t.setHeap s.heap).advance) b c
    (by rw [hc, hconfig']; exact hfit) (by rw [hconfig']; exact havail)
  refine ⟨_, _, hfreed, rfl, hagain, hidle, ?handle, ?heap⟩
  case handle => rw [State.reg_writeBack_self, hb]; rfl
  case heap => rw [State.writeBack_heap, State.setHeap_heap, hc, hheap]; rfl

/-- Settles O17: the jump, then ReplaceProgram's answer and its two failures. -/
theorem loadprogReplacesProgramOrJumps : Obligations.LoadprogReplacesProgramOrJumps := by
  unfold Obligations.LoadprogReplacesProgramOrJumps
  refine ⟨fun _ hw => decode_loadprog (opcodeField_of_match hw), fun b c s => ?_⟩
  refine ⟨fun hb => exec_loadprog_jump hb c, fun ws p hb hws hp hfit => ?replaces,
    fun hb hfree => ?free, fun ws p hb hws hp hex => ?exhausted⟩
  case replaces =>
    obtain ⟨a, hwords, hcopy⟩ := State.replaceProgram_of_fits hws hp hfit
    rw [exec_loadprog_replace hb]
    refine ⟨_, s.attempt_of_ok _ hcopy, ?copy, fun k hk => ?others, fun _ _ => rfl, rfl, rfl, rfl,
      rfl, rfl⟩
    case copy =>
      rw [State.setPc_heap, State.setHeap_heap, Memory.array?_insertKey, if_pos rfl, hwords]
    case others => rw [State.setPc_heap, State.setHeap_heap, Memory.array?_insertKey, if_neg hk]
  case free =>
    rw [exec_loadprog_replace hb]
    exact s.attempt_of_error _ (State.replaceProgram_of_free hfree)
  case exhausted =>
    rw [exec_loadprog_replace hb]
    exact s.attempt_of_error _ (State.replaceProgram_of_exceeds hws hp hex)

/-- Settles O18: the jump itself succeeds, and the fetch of the next step is out of bounds. -/
theorem jumpPastEndFailsAtNextFetch : Obligations.JumpPastEndFailsAtNextFetch := by
  unfold Obligations.JumpPastEndFailsAtNextFetch
  intro b c s hi hb hpast
  have hfetch : (s.setPc (s.reg c)).fetch = .error .outOfBoundsAccess :=
    State.memRead_of_outOfBounds (s := s.setPc (s.reg c)) hpast
  exact ⟨_, exec_loadprog_jump hb c, hi, step_of_fetch_error hi hfetch⟩

/-- Settles O19: the step answers the same state, which is Idle. -/
theorem jumpToItselfNeverFails : Obligations.JumpToItselfNeverFails := by
  unfold Obligations.JumpToItselfNeverFails
  intro s w b c hi hf hw hb hc
  have hstep : step s = .next s := step_of_jump_to_itself hi hf hw hb hc
  have hself : ∀ t, Reaches s t → t = s := fun _ => eq_of_reaches_of_step_eq_self hstep
  refine ⟨fun t r ht hfail => ?_, hself⟩
  rw [hself t ht, hi] at hfail
  cases hfail

end Sys2Proof.Machine
end

section
/-!
PROOFS, 60_exceptions.md. The cause table in both directions: an instruction with a row that applies takes the
exception of that row, and one that takes an exception has the row. An instruction that completes leaves the
machine Idle, Halted or Waiting, so its result is no failure.
-/

namespace Sys2Proof.Machine

/-! ### The failures of the operations -/

theorem State.memRead_error_iff {s : State} {h o : Word} {r : FailReason} :
    s.memRead h o = .error r ↔ OutOfBounds s h o ∧ r = .outOfBoundsAccess := by
  constructor
  · intro he
    obtain ⟨hr, hnone⟩ := State.memRead_error he
    exact ⟨outOfBounds_iff.2 hnone, hr⟩
  · rintro ⟨hb, rfl⟩
    exact State.memRead_of_outOfBounds hb

theorem State.memWrite_error_iff {s : State} {h o v : Word} {r : FailReason} :
    s.memWrite h o v = .error r ↔ OutOfBounds s h o ∧ r = .outOfBoundsAccess := by
  constructor
  · intro he
    rcases s.memWrite_cases h o v with ⟨a, -, -, hok⟩ | ⟨hlen, herr⟩
    · rw [hok] at he; cases he
    · rw [herr] at he
      cases he
      refine ⟨fun ws hws => ?_, rfl⟩
      obtain ⟨a, ha, rfl⟩ := Memory.array?_eq_some_iff.1 hws
      rw [a.words_length]
      exact hlen a ha
  · rintro ⟨hb, rfl⟩
    exact State.memWrite_of_outOfBounds v hb

theorem aluDiv_error_iff {b c : Word} {r : FailReason} :
    aluDiv b c = .error r ↔ c = 0#32 ∧ r = .divisionByZero := by
  by_cases hc : c = 0#32
  · rw [hc, aluDiv_zero, Except.error.injEq, and_iff_right rfl, eq_comm]
  · obtain ⟨q, hq, -⟩ := aluDiv_of_ne_zero b hc
    simp only [hq, hc, reduceCtorEq, false_and]

theorem outputByte_error_iff {v : Word} {r : FailReason} :
    outputByte v = .error r ↔ 255 < v.toNat ∧ r = .outputOutOfRange := by
  rcases Nat.lt_or_ge 255 v.toNat with hgt | hle
  · rw [outputByte_of_gt hgt, Except.error.injEq, and_iff_right hgt, eq_comm]
  · obtain ⟨b, hb, -⟩ := outputByte_of_le hle
    simp only [hb, Nat.not_lt.2 hle, reduceCtorEq, false_and]

/-- ReplaceProgram fails for liveness before capacity (R228). -/
theorem State.replaceProgram_error {s : State} {h : Word} {p : List Word} {r : FailReason}
    (hp : s.heap.array? 0 = some p) (he : s.replaceProgram h = .error r) :
    (s.heap.array? h.toNat = none ∧ r = .outOfBoundsAccess) ∨
      ∃ ws, s.heap.array? h.toNat = some ws ∧
        ExceedsCapacity s (ws.length + s.heap.usedWords - p.length) ∧ r = .resourceExhausted := by
  rcases s.replaceProgram_cases h with ⟨a, -, -, hok⟩ | ⟨hnone, herr⟩ | ⟨a, cap, ha, hcap, hlt, herr⟩
  · rw [hok] at he; cases he
  · rw [herr] at he
    cases he
    exact .inl ⟨Memory.array?_eq_none_iff.2 hnone, rfl⟩
  · rw [herr] at he
    cases he
    exact .inr ⟨a.words, Memory.array?_of_lookupKey ha,
      (exceedsCapacity_copy_iff hp).2 ⟨cap, hcap, hlt⟩, rfl⟩

/-! ### What the operations leave of the state machine -/

theorem State.memWrite_state {s t : State} {h o v : Word} (ht : s.memWrite h o v = .ok t) :
    t.state = s.state := by
  rcases s.memWrite_cases h o v with ⟨a, -, -, he⟩ | ⟨-, he⟩
  all_goals rw [he] at ht; cases ht
  rfl

theorem State.allocate_state {s : State} {n : Word} {p : Word × State} (hp : s.allocate n = .ok p) :
    p.2.state = s.state := by
  rcases s.allocate_cases n with ⟨-, -, he⟩ | ⟨-, he⟩
  all_goals rw [he] at hp; cases hp
  rfl

theorem State.free_state {s t : State} {h : Word} (ht : s.free h = .ok t) : t.state = s.state := by
  rcases s.free_cases h with ⟨-, -, he⟩ | ⟨-, he⟩
  all_goals rw [he] at ht; cases ht
  rfl

theorem State.replaceProgram_state {s t : State} {h : Word} (ht : s.replaceProgram h = .ok t) :
    t.state = s.state := by
  rcases s.replaceProgram_cases h with ⟨a, -, -, he⟩ | ⟨-, he⟩ | ⟨a, cap, -, -, -, he⟩
  all_goals rw [he] at ht; cases ht
  rfl

/-- An operation whose results leave the state machine as it was fails where the attempt of it does. -/
theorem State.error_of_attempt_eq_fail {α : Type} {s : State} {res : Except FailReason α}
    {k : α → State} {r : FailReason} (hi : s.state = .idle)
    (h : s.attempt res k = .next (s.fail r)) (hk : ∀ v, res = .ok v → (k v).state = s.state) :
    res = .error r := by
  rcases State.attempt_cases h with ⟨v, hv, hfail⟩ | ⟨r', hr', hfail⟩
  · have hstate := hk v hv
    rw [← hfail, hi] at hstate
    cases hstate
  · have hstate := congrArg State.state hfail
    cases hstate
    exact hr'

/-! ### The table (R227) -/

/-- A row that applies is the exception taken. -/
theorem exec_of_failsWith {i : Instr} {s : State} {r : FailReason} (hs : s.heap.wf)
    (h : FailsWith i s r) : exec i s = .next (s.fail r) := by
  cases h with
  | illegal14 => exact exec_illegal14 s
  | illegal15 => exact exec_illegal15 s
  | index hb => exact s.attempt_of_error _ (State.memRead_of_outOfBounds hb)
  | amend hb => exact s.attempt_of_error _ (State.memWrite_of_outOfBounds _ hb)
  | loadprogFree h0 hfree =>
    rw [exec_loadprog_replace h0]
    exact s.attempt_of_error _ (State.replaceProgram_of_free hfree)
  | div hc => exact s.attempt_of_error _ (aluDiv_error_iff.2 ⟨hc, rfl⟩)
  | abandonZero hc => exact s.attempt_of_error _ (State.free_error_iff.2 ⟨.inl hc, rfl⟩)
  | abandonFree hc => exact s.attempt_of_error _ (State.free_error_iff.2 ⟨.inr hc, rfl⟩)
  | out hc => exact s.attempt_of_error _ (outputByte_of_gt hc)
  | allocWords hw => exact s.attempt_of_error _ ((State.allocate_error_iff hs).2 ⟨.inl hw, rfl⟩)
  | allocHandles hh => exact s.attempt_of_error _ ((State.allocate_error_iff hs).2 ⟨.inr hh, rfl⟩)
  | loadprogWords h0 hws hp hex =>
    rw [exec_loadprog_replace h0]
    exact s.attempt_of_error _ (State.replaceProgram_of_exceeds hws hp hex)

/-- A write-back leaves an Idle machine Idle, so it is no failure. -/
theorem State.writeBack_next_ne_fail {s : State} {q : Reg} {v : Word} {r : FailReason}
    (hi : s.state = .idle) :
    (Host.Outcome.next (s.writeBack q v) : Host.Outcome State Fault Refusal) ≠ .next (s.fail r) := by
  intro h
  have hstate := congrArg State.state (Host.Outcome.next.inj h)
  rw [State.writeBack_state, hi] at hstate
  cases hstate

/-- An exception taken has its row. -/
theorem failsWith_of_exec {i : Instr} {s : State} {r : FailReason} (hs : s.wf)
    (hi : s.state = .idle) (h : exec i s = .next (s.fail r)) : FailsWith i s r := by
  obtain ⟨hheap, hlive, -⟩ := hs
  cases i with
  | cmov a b c => rw [exec_cmov] at h; exact absurd h (State.writeBack_next_ne_fail hi)
  | index a b c =>
    rw [exec_index] at h
    obtain ⟨hb, rfl⟩ := State.memRead_error_iff.1
      (State.error_of_attempt_eq_fail hi h fun _ _ => rfl)
    exact .index hb
  | amend a b c =>
    rw [exec_amend] at h
    obtain ⟨hb, rfl⟩ := State.memWrite_error_iff.1
      (State.error_of_attempt_eq_fail hi h fun _ => State.memWrite_state)
    exact .amend hb
  | add a b c => exact absurd h (State.writeBack_next_ne_fail hi)
  | mul a b c => exact absurd h (State.writeBack_next_ne_fail hi)
  | div a b c =>
    rw [exec_div] at h
    obtain ⟨hc, rfl⟩ := aluDiv_error_iff.1 (State.error_of_attempt_eq_fail hi h fun _ _ => rfl)
    exact .div hc
  | nand a b c => exact absurd h (State.writeBack_next_ne_fail hi)
  | halt => cases congrArg State.state (Host.Outcome.next.inj h)
  | alloc b c =>
    rw [exec_alloc] at h
    obtain ⟨hno, rfl⟩ := (State.allocate_error_iff hheap).1
      (State.error_of_attempt_eq_fail hi h fun _ => State.allocate_state)
    exact hno.elim .allocWords .allocHandles
  | abandon c =>
    rw [exec_abandon] at h
    obtain ⟨hno, rfl⟩ := State.free_error_iff.1
      (State.error_of_attempt_eq_fail hi h fun _ => State.free_state)
    exact hno.elim .abandonZero .abandonFree
  | out c =>
    rw [exec_out] at h
    obtain ⟨hc, rfl⟩ := outputByte_error_iff.1
      (State.error_of_attempt_eq_fail hi h fun _ _ => rfl)
    exact .out hc
  | inp c => cases congrArg State.state (Host.Outcome.next.inj h)
  | loadprog b c =>
    by_cases hb : s.reg b = 0#32
    · rw [exec_loadprog_jump hb] at h
      have hstate := congrArg State.state (Host.Outcome.next.inj h)
      rw [State.setPc_state, hi] at hstate
      cases hstate
    · rw [exec_loadprog_replace hb] at h
      rw [Memory.live_eq] at hlive
      obtain ⟨p, hp⟩ := Option.isSome_iff_exists.1 hlive
      have herror := State.error_of_attempt_eq_fail hi h fun _ => State.replaceProgram_state
      rcases State.replaceProgram_error hp herror with ⟨hfree, rfl⟩ | ⟨ws, hws, hex, rfl⟩
      · exact .loadprogFree hb hfree
      · exact .loadprogWords hb hws hp hex
  | orth a imm => exact absurd h (State.writeBack_next_ne_fail hi)
  | illegal14 => cases congrArg State.state (Host.Outcome.next.inj h); exact .illegal14 s
  | illegal15 => cases congrArg State.state (Host.Outcome.next.inj h); exact .illegal15 s

theorem exec_failed_iff {i : Instr} {s t : State} {r : FailReason} (hs : s.wf)
    (hi : s.state = .idle) (h : exec i s = .next t) :
    t.state = .failed r ↔ FailsWith i s r := by
  constructor
  · intro ht
    rw [(exec_effect h).eq_fail hi ht] at h
    exact failsWith_of_exec hs hi h
  · intro hrow
    rw [exec_of_failsWith hs.1 hrow] at h
    cases h
    rfl

/-! ### The obligation -/

/-- Settles O39: a failed fetch is out of bounds and runs nothing; after a fetch the table decides. -/
theorem causeTableIsComplete : Obligations.CauseTableIsComplete := by
  unfold Obligations.CauseTableIsComplete
  intro s t r hs hi h
  rw [← State.memRead_error_iff, ← s.fetch_eq]
  cases hf : s.fetch with
  | error r' =>
    rw [step_of_fetch_error hi hf] at h
    cases h
    simp only [State.fail_state, RunState.failed.injEq, Except.error.injEq, reduceCtorEq, false_and,
      exists_false, or_false]
  | ok w =>
    rw [step_of_fetch_ok hi hf] at h
    rw [exec_failed_iff hs hi h]
    simp only [reduceCtorEq, false_or, Except.ok.injEq, exists_eq_left']

end Sys2Proof.Machine
end

section
/-!
PROOFS, what an instruction depends on (10_state.md R22, 40_engine_cycle.md R124). Two machines that agree on
finger, heap, state machine and parameters are run side by side. Every named operation keeps them in step,
and the heap operations ask nothing but the heap and the parameters; so an instruction whose source registers
agree has the same effect on both, whatever their other registers, output and inputs.
-/

namespace Sys2Proof.Machine

/-! ### Two machines side by side -/

/-- The parts of the state, other than registers, that an instruction may depend on are the same. -/
structure SameCore (s s' : State) : Prop where
  pc : s'.pc = s.pc
  heap : s'.heap = s.heap
  state : s'.state = s.state
  config : s'.config = s.config

/-- `t` is to `s` as `t'` is to `s'`: finger, heap, state machine and parameters are the same, both sides
have output the same bytes and taken no input, and a register reads the same or was left alone. -/
structure SameEffect (s t s' t' : State) : Prop where
  core : SameCore t t'
  outq : ∃ o, t.outq = s.outq ++ o ∧ t'.outq = s'.outq ++ o
  hostIn : t.hostIn = s.hostIn ∧ t'.hostIn = s'.hostIn
  regs : ∀ r, t'.reg r = t.reg r ∨ (t.reg r = s.reg r ∧ t'.reg r = s'.reg r)

section

variable {s t s' t' : State}

theorem SameCore.unchanged (h : SameCore s s') : SameEffect s s s' s' where
  core := h
  outq := ⟨[], (List.append_nil _).symm, (List.append_nil _).symm⟩
  hostIn := ⟨rfl, rfl⟩
  regs _ := .inr ⟨rfl, rfl⟩

/-! ### Each operation keeps them in step -/

theorem SameEffect.setHeap (h : SameEffect s t s' t') (m : Memory) :
    SameEffect s (t.setHeap m) s' (t'.setHeap m) where
  core := ⟨h.core.pc, rfl, h.core.state, h.core.config⟩
  outq := h.outq
  hostIn := h.hostIn
  regs := h.regs

theorem SameEffect.setState (h : SameEffect s t s' t') (v : RunState) :
    SameEffect s (t.setState v) s' (t'.setState v) where
  core := ⟨h.core.pc, h.core.heap, rfl, h.core.config⟩
  outq := h.outq
  hostIn := h.hostIn
  regs := h.regs

theorem SameEffect.setPc (h : SameEffect s t s' t') (w : Word) :
    SameEffect s (t.setPc w) s' (t'.setPc w) where
  core := ⟨rfl, h.core.heap, h.core.state, h.core.config⟩
  outq := h.outq
  hostIn := h.hostIn
  regs := h.regs

theorem SameEffect.advance (h : SameEffect s t s' t') : SameEffect s t.advance s' t'.advance := by
  rw [State.advance, State.advance, h.core.pc]
  exact h.setPc _

theorem SameEffect.appendOut (h : SameEffect s t s' t') (b : Byte) :
    SameEffect s (t.appendOut b) s' (t'.appendOut b) where
  core := ⟨h.core.pc, h.core.heap, h.core.state, h.core.config⟩
  outq := by
    obtain ⟨o, ho, ho'⟩ := h.outq
    refine ⟨o ++ [b], ?_, ?_⟩
    · rw [State.appendOut_outq, ho, List.append_assoc]
    · rw [State.appendOut_outq, ho', List.append_assoc]
  hostIn := h.hostIn
  regs := h.regs

theorem SameEffect.setReg (h : SameEffect s t s' t') (q : Reg) (v : Word) :
    SameEffect s (t.setReg q v) s' (t'.setReg q v) where
  core := ⟨h.core.pc, h.core.heap, h.core.state, h.core.config⟩
  outq := h.outq
  hostIn := h.hostIn
  regs r := by
    rw [State.reg_setReg, State.reg_setReg]
    split
    · exact .inl rfl
    · exact h.regs r

theorem SameEffect.writeBack (h : SameEffect s t s' t') (q : Reg) (v : Word) :
    SameEffect s (t.writeBack q v) s' (t'.writeBack q v) :=
  (h.setReg q v).advance

/-- An attempt of one result keeps them in step where the two continuations do. -/
theorem SameCore.attempt {α : Type} {res : Except FailReason α} {k k' : α → State}
    (hc : SameCore s s') (hk : ∀ v, SameEffect s (k v) s' (k' v))
    (h : s.attempt res k = .next t) :
    ∃ t', s'.attempt res k' = .next t' ∧ SameEffect s t s' t' := by
  rcases State.attempt_cases h with ⟨v, hv, rfl⟩ | ⟨r, hr, rfl⟩
  · exact ⟨k' v, s'.attempt_of_ok _ hv, hk v⟩
  · exact ⟨s'.fail r, s'.attempt_of_error _ hr, hc.unchanged.setState _⟩

end

/-! ### The heap operations ask nothing but the heap and the parameters -/

theorem State.attempt_map {α β : Type} (s : State) (res : Except FailReason α) (f : α → β)
    (k : β → State) : s.attempt (res.map f) k = s.attempt res fun v => k (f v) := by
  cases res <;> rfl

theorem State.memWrite_by_heap (m : Memory) (h o v : Word) :
    ∃ res : Except FailReason Memory, ∀ s : State, s.heap = m →
      s.memWrite h o v = res.map s.setHeap := by
  cases ha : lookupKey m h.toNat with
  | none =>
    refine ⟨.error .outOfBoundsAccess, fun s hs => ?_⟩
    simp only [State.memWrite, hs, ha]
    rfl
  | some a =>
    refine ⟨if o.toNat < a.length then .ok (insertKey m h.toNat (a.write o.toNat v))
      else .error .outOfBoundsAccess, fun s hs => ?_⟩
    simp only [State.memWrite, hs, ha]
    split <;> rfl

theorem State.allocate_by_heap (c : Config) (m : Memory) (n : Word) :
    ∃ res : Except FailReason (Word × Memory), ∀ s : State, s.config = c → s.heap = m →
      s.allocate n = res.map fun p => (p.1, s.setHeap p.2) := by
  refine ⟨if fitsCapacity c (n.toNat + m.usedWords) && handleAvailable c m then
    .ok (BitVec.ofNat 32 m.firstFree, insertKey m m.firstFree (WordArray.zeros n.toNat))
    else .error .resourceExhausted, fun s hc hm => ?_⟩
  simp only [State.allocate, hc, hm]
  split <;> rfl

theorem State.free_by_heap (m : Memory) (h : Word) :
    ∃ res : Except FailReason Memory, ∀ s : State, s.heap = m → s.free h = res.map s.setHeap := by
  refine ⟨if h = 0#32 then .error .invalidAbandon else if m.live h.toNat then
    .ok (eraseKey m h.toNat) else .error .invalidAbandon, fun s hm => ?_⟩
  simp only [State.free, hm]
  split
  · rfl
  · split <;> rfl

theorem State.replaceProgram_by_heap (c : Config) (m : Memory) (h : Word) :
    ∃ res : Except FailReason Memory, ∀ s : State, s.config = c → s.heap = m →
      s.replaceProgram h = res.map s.setHeap := by
  cases ha : lookupKey m h.toNat with
  | none =>
    refine ⟨.error .outOfBoundsAccess, fun s _ hm => ?_⟩
    simp only [State.replaceProgram, hm, ha]
    rfl
  | some a =>
    cases hcap : c.heapCapacityWords with
    | none =>
      refine ⟨.ok (insertKey m 0 a), fun s hc hm => ?_⟩
      simp only [State.replaceProgram, hm, ha, hc, hcap]
      rfl
    | some cap =>
      refine ⟨if cap + m.programLength < a.length + m.usedWords then .error .resourceExhausted
        else .ok (insertKey m 0 a), fun s hc hm => ?_⟩
      simp only [State.replaceProgram, hm, ha, hc, hcap]
      split <;> rfl

/-! ### Every instruction keeps them in step -/

theorem forall_mem_pair {α : Type} {p : α → Prop} {a b : α} :
    (∀ x ∈ [a, b], p x) ↔ p a ∧ p b := by
  rw [List.forall_mem_cons, List.forall_mem_singleton]

/-- CMOV as it reads its sources: with a condition of 0 it writes no register. -/
theorem exec_cmov_skip {c : Reg} {s : State} (hc : s.reg c = 0#32) (a b : Reg) :
    exec (.cmov a b c) s = .next s.advance := by
  rw [exec_cmov, if_neg (not_not.2 hc), State.writeBack_reg]

theorem exec_cmov_move {c : Reg} {s : State} (hc : s.reg c ≠ 0#32) (a b : Reg) :
    exec (.cmov a b c) s = .next (s.writeBack a (s.reg b)) := by
  rw [exec_cmov, if_pos hc]

theorem exec_sameEffect {i : Instr} {s s' t : State} (hc : SameCore s s')
    (hsrc : ∀ r ∈ i.sources, s'.reg r = s.reg r) (h : exec i s = .next t) :
    ∃ t', exec i s' = .next t' ∧ SameEffect s t s' t' := by
  have hsame := hc.unchanged
  cases i with
  | cmov a b c =>
    obtain ⟨hb, hcond⟩ := forall_mem_pair.1 hsrc
    by_cases h0 : s.reg c = 0#32
    · rw [exec_cmov_skip h0] at h
      cases h
      exact ⟨_, exec_cmov_skip (hcond.trans h0) a b, hsame.advance⟩
    · rw [exec_cmov_move h0] at h
      cases h
      refine ⟨_, exec_cmov_move (hcond ▸ h0) a b, ?_⟩
      rw [hb]
      exact hsame.writeBack a _
  | index a b c =>
    obtain ⟨hb, ho⟩ := forall_mem_pair.1 hsrc
    have hread : s'.memRead (s'.reg b) (s'.reg c) = s.memRead (s.reg b) (s.reg c) := by
      rw [hb, ho]
      exact State.memRead_congr (by rw [hc.heap]) _
    rw [exec_index] at h ⊢
    rw [hread]
    exact hc.attempt (hsame.writeBack a) h
  | amend a b c =>
    obtain ⟨ha, hsrc⟩ := List.forall_mem_cons.1 hsrc
    obtain ⟨hb, hv⟩ := forall_mem_pair.1 hsrc
    obtain ⟨res, hres⟩ := State.memWrite_by_heap s.heap (s.reg a) (s.reg b) (s.reg c)
    rw [exec_amend, hres s rfl, State.attempt_map] at h
    rw [exec_amend, ha, hb, hv, hres s' hc.heap, State.attempt_map]
    exact hc.attempt (fun m => (hsame.setHeap m).advance) h
  | add a b c =>
    obtain ⟨hb, hv⟩ := forall_mem_pair.1 hsrc
    rw [exec_add] at h ⊢
    cases h
    rw [hb, hv]
    exact ⟨_, rfl, hsame.writeBack a _⟩
  | mul a b c =>
    obtain ⟨hb, hv⟩ := forall_mem_pair.1 hsrc
    rw [exec_mul] at h ⊢
    cases h
    rw [hb, hv]
    exact ⟨_, rfl, hsame.writeBack a _⟩
  | div a b c =>
    obtain ⟨hb, hv⟩ := forall_mem_pair.1 hsrc
    rw [exec_div] at h ⊢
    rw [hb, hv]
    exact hc.attempt (hsame.writeBack a) h
  | nand a b c =>
    obtain ⟨hb, hv⟩ := forall_mem_pair.1 hsrc
    rw [exec_nand] at h ⊢
    cases h
    rw [hb, hv]
    exact ⟨_, rfl, hsame.writeBack a _⟩
  | halt => cases h; exact ⟨_, exec_halt s', hsame.setState _⟩
  | alloc b c =>
    have hv := List.forall_mem_singleton.1 hsrc
    obtain ⟨res, hres⟩ := State.allocate_by_heap s.config s.heap (s.reg c)
    rw [exec_alloc, hres s rfl rfl, State.attempt_map] at h
    rw [exec_alloc, hv, hres s' hc.config hc.heap, State.attempt_map]
    exact hc.attempt (fun p => (hsame.setHeap p.2).writeBack b p.1) h
  | abandon c =>
    have hv := List.forall_mem_singleton.1 hsrc
    obtain ⟨res, hres⟩ := State.free_by_heap s.heap (s.reg c)
    rw [exec_abandon, hres s rfl, State.attempt_map] at h
    rw [exec_abandon, hv, hres s' hc.heap, State.attempt_map]
    exact hc.attempt (fun m => (hsame.setHeap m).advance) h
  | out c =>
    have hv := List.forall_mem_singleton.1 hsrc
    rw [exec_out] at h ⊢
    rw [hv]
    exact hc.attempt (fun b => (hsame.appendOut b).advance) h
  | inp c => cases h; exact ⟨_, exec_inp c s', hsame.setState _⟩
  | loadprog b c =>
    obtain ⟨hb, hv⟩ := forall_mem_pair.1 hsrc
    by_cases h0 : s.reg b = 0#32
    · rw [exec_loadprog_jump h0] at h
      cases h
      refine ⟨_, exec_loadprog_jump (hb.trans h0) c, ?_⟩
      rw [hv]
      exact hsame.setPc _
    · obtain ⟨res, hres⟩ := State.replaceProgram_by_heap s.config s.heap (s.reg b)
      rw [exec_loadprog_replace h0, hres s rfl rfl, State.attempt_map] at h
      rw [exec_loadprog_replace (hb ▸ h0), hb, hv, hres s' hc.config hc.heap, State.attempt_map]
      exact hc.attempt (fun m => (hsame.setHeap m).setPc _) h
  | orth a imm => cases h; exact ⟨_, exec_orth a imm s', hsame.writeBack a imm⟩
  | illegal14 => cases h; exact ⟨_, exec_illegal14 s', hsame.setState _⟩
  | illegal15 => cases h; exact ⟨_, exec_illegal15 s', hsame.setState _⟩

/-! ### Another host side -/

/-- The machine with bytes before its pending output and other inputs scheduled. -/
def State.withHostSide (q : List Byte) (f : List HostInput → List HostInput) (s : State) : State :=
  { s with outq := q ++ s.outq, hostIn := f s.hostIn }

theorem exec_withHostSide {i : Instr} {s t : State} (q : List Byte)
    (f : List HostInput → List HostInput) (h : exec i s = .next t) :
    exec i (s.withHostSide q f) = .next (t.withHostSide q f) := by
  obtain ⟨u, hu, hcore, ⟨o, ho, ho'⟩, ⟨hin, hin'⟩, hregs⟩ :=
    exec_sameEffect (s := s) (s' := s.withHostSide q f) ⟨rfl, rfl, rfl, rfl⟩ (fun _ _ => rfl) h
  obtain ⟨hpc, hheap, hstate, hconfig⟩ := hcore
  have hx : u.x = t.x := State.x_ext fun r =>
    (hregs r).elim id fun ⟨hkept, hkept'⟩ => hkept'.trans hkept.symm
  have hout : u.outq = q ++ t.outq := by
    rw [ho, ho', State.withHostSide, List.append_assoc]
  have hinput : u.hostIn = f t.hostIn := by rw [hin, hin', State.withHostSide]
  have heq : u = t.withHostSide q f :=
    (State.mk.injEq ..).mpr ⟨hx, hpc, hheap, hout, hstate, hinput, hconfig⟩
  rw [hu, heq]

/-! ### The obligations -/

/-- Settles O35: the two register files are run side by side. -/
theorem onlyListedRegistersAreRead : Obligations.OnlyListedRegistersAreRead := by
  unfold Obligations.OnlyListedRegistersAreRead
  intro i s t y hsrc h
  obtain ⟨u, hu, hcore, ⟨o, ho, ho'⟩, ⟨hin, hin'⟩, hregs⟩ :=
    exec_sameEffect (s := s) (s' := { s with x := y }) ⟨rfl, rfl, rfl, rfl⟩ hsrc h
  exact ⟨u, hu, hcore.pc, hcore.heap, ho'.trans ho.symm, hcore.state, hin'.trans hin.symm,
    hcore.config, hregs⟩

/-- Settles O36: the two host sides are run side by side. -/
theorem meaningIgnoresPendingOutputAndInput : Obligations.MeaningIgnoresPendingOutputAndInput := by
  unfold Obligations.MeaningIgnoresPendingOutputAndInput
  exact fun _ _ _ q p => exec_withHostSide q fun _ => p

end Sys2Proof.Machine
end

section
/-!
PROOFS, the host's operations (40_engine_cycle.md R130 to R134, R147). The steps of two budgets are the steps
of the sum, and a run does not look at the pending output or the scheduled inputs; increments, the one result
of a run and clones follow. Then the echo of an input, and the word that a load places.
-/

namespace Sys2Proof.Machine

/-! ### The steps of a run -/

/-- The steps of two budgets, one after the other, are the steps of both together. -/
theorem runSteps_add {j : Nat} {s t : State} (h : runSteps j s = .next t) (k : Nat) :
    runSteps (j + k) s = runSteps k t := by
  induction j generalizing s with
  | zero =>
    cases h
    rw [Nat.zero_add]
  | succ j ih =>
    by_cases hi : s.state = .idle
    · obtain ⟨u, hu⟩ := step_next s
      rw [runSteps_succ_of_step hi hu] at h
      rw [Nat.succ_add, runSteps_succ_of_step hi hu, ih h]
    · rw [runSteps_of_not_idle hi] at h
      cases h
      rw [runSteps_of_not_idle hi, runSteps_of_not_idle hi]

/-- A step from Idle does the same on another host side. -/
theorem step_withHostSide {s t : State} (q : List Byte) (f : List HostInput → List HostInput)
    (hi : s.state = .idle) (h : step s = .next t) :
    step (s.withHostSide q f) = .next (t.withHostSide q f) := by
  have hi' : (s.withHostSide q f).state = .idle := hi
  cases hf : s.fetch with
  | error r =>
    rw [step_of_fetch_error hi hf] at h
    cases h
    exact step_of_fetch_error hi' hf
  | ok w =>
    rw [step_of_fetch_ok hi hf] at h
    rw [step_of_fetch_ok hi' hf]
    exact exec_withHostSide q f h

theorem runSteps_withHostSide {k : Nat} {s t : State} (q : List Byte)
    (f : List HostInput → List HostInput) (h : runSteps k s = .next t) :
    runSteps k (s.withHostSide q f) = .next (t.withHostSide q f) := by
  induction k generalizing s with
  | zero =>
    cases h
    rfl
  | succ k ih =>
    by_cases hi : s.state = .idle
    · obtain ⟨u, hu⟩ := step_next s
      rw [runSteps_succ_of_step hi hu] at h
      have hi' : (s.withHostSide q f).state = .idle := hi
      rw [runSteps_succ_of_step hi' (step_withHostSide q f hi hu)]
      exact ih h
    · have hi' : (s.withHostSide q f).state ≠ .idle := hi
      rw [runSteps_of_not_idle hi] at h
      cases h
      exact runSteps_of_not_idle hi' _

/-- What a bounded run answers: the pending output where its steps end, and the machine without it. -/
theorem runBounded_eq_next_iff {k : Nat} {s t : State} {out : List Byte} (hk : 1 ≤ k) :
    runBounded k s = .next (out, t) ↔
      ∃ u, runSteps k s = .next u ∧ out = u.outq ∧ t = { u with outq := [] } := by
  rw [runBounded, if_neg (Nat.one_le_iff_ne_zero.1 hk)]
  cases hsteps : runSteps k s with
  | next u =>
    simp only [collect, Host.Outcome.next.injEq, Prod.mk.injEq, exists_eq_left']
    exact and_congr eq_comm eq_comm
  | fault r => simp only [reduceCtorEq, false_and, exists_false]
  | refused r => simp only [reduceCtorEq, false_and, exists_false]

/-- A machine outside Idle makes no step, and hands over its pending output. -/
theorem runBounded_of_not_idle {k : Nat} {s : State} (hk : 1 ≤ k) (h : s.state ≠ .idle) :
    runBounded k s = .next (s.outq, { s with outq := [] }) :=
  runBounded_of_runSteps hk (runSteps_of_not_idle h k)

theorem one_le_of_runBounded {k : Nat} {s : State} {p : List Byte × State}
    (h : runBounded k s = .next p) : 1 ≤ k := by
  rw [Nat.one_le_iff_ne_zero]
  rintro rfl
  cases h

/-! ### The unbounded run -/

/-- Two budgets that both suffice end in the same state: each run makes no step in the other's end. -/
theorem runSteps_end_unique {j k : Nat} {s t u : State} (ht : runSteps j s = .next t)
    (hu : runSteps k s = .next u) (ht' : t.state ≠ .idle) (hu' : u.state ≠ .idle) : t = u := by
  have hjk : runSteps (j + k) s = .next t := by rw [runSteps_add ht, runSteps_of_not_idle ht']
  have hkj : runSteps (k + j) s = .next u := by rw [runSteps_add hu, runSteps_of_not_idle hu']
  rw [Nat.add_comm, hkj] at hjk
  cases hjk
  rfl

/-! ### Clones -/

theorem clone_eq_withHostSide (s : State) : clone s = s.withHostSide [] fun _ => [] := rfl

theorem runSteps_clone {k : Nat} {s t : State} (h : runSteps k s = .next t) :
    runSteps k (clone s) = .next (clone t) := by
  rw [clone_eq_withHostSide, clone_eq_withHostSide]
  exact runSteps_withHostSide _ _ h

/-! ### The host's calls in each state (R132, R133) -/

theorem supplyInput_refused {s : State} (h : ∀ c, s.state ≠ .waiting c) (i : HostInput) :
    supplyInput i s = .refused .inputNotAwaited := by
  cases hs : s.state with
  | waiting c => exact absurd hs (h c)
  | idle | halted | failed => simp only [supplyInput, hs]

theorem waiting_of_supplyInput {s t : State} {i : HostInput} (h : supplyInput i s = .next t) :
    ∃ c, s.state = .waiting c := by
  by_contra hno
  rw [supplyInput_refused (not_exists.1 hno)] at h
  cases h

/-- Each state has a name of its own, and a failure's name carries its reason. -/
theorem stateQuery_names_state (s : State) :
    (stateQuery s = .idle ↔ s.state = .idle) ∧ (stateQuery s = .halted ↔ s.state = .halted) ∧
      (stateQuery s = .waiting ↔ ∃ c, s.state = .waiting c) ∧
      ∀ r, stateQuery s = .failed r ↔ s.state = .failed r := by
  cases hs : s.state with
  | idle =>
    have hname : stateQuery s = .idle := by simp only [stateQuery, hs]
    simp [hname]
  | waiting c =>
    have hname : stateQuery s = .waiting := by simp only [stateQuery, hs]
    simp [hname]
  | halted =>
    have hname : stateQuery s = .halted := by simp only [stateQuery, hs]
    simp [hname]
  | failed r =>
    have hname : stateQuery s = .failed r := by simp only [stateQuery, hs]
    simp [hname]

/-! ### The word a load places (log 6) -/

theorem State.withFetchWord_toNat (s : State) (w : Word) :
    s.withFetchWord 32 w.toNat = placeInstruction s w := by
  rw [State.withFetchWord, Nat.mod_eq_of_lt w.isLt, BitVec.ofNat_toNat, BitVec.setWidth_eq]

theorem State.memRead_of_word? {s : State} {h o v : Word}
    (hv : s.heap.word? h.toNat o.toNat = some v) : s.memRead h o = .ok v := by
  simp only [State.memRead, hv]

/-- The placed word is within the lengthened array 0, at the finger. -/
theorem placeInstruction_fetch (s : State) (w : Word) : (placeInstruction s w).fetch = .ok w := by
  have hword : (placeInstruction s w).heap.word? 0 s.pc.toNat = some w := by
    have hlt : s.pc.toNat < max ((lookupKey s.heap 0).getD (WordArray.zeros 0)).length
      (s.pc.toNat + 1) := Nat.lt_of_lt_of_le (Nat.lt_succ_self _) (Nat.le_max_right _ _)
    rw [placeInstruction, State.setState_heap, State.setHeap_heap, Memory.word?,
      lookupKey_insertKey_self, Option.bind_some, WordArray.word?, WordArray.cell_write, if_pos rfl]
    exact if_pos hlt
  exact State.memRead_of_word? (h := 0#32) hword

theorem placeInstruction_array? (s : State) (w : Word) {h : Nat} (hh : h ≠ 0) :
    (placeInstruction s w).heap.array? h = s.heap.array? h := by
  rw [placeInstruction, State.setState_heap, State.setHeap_heap, Memory.array?_insertKey, if_neg hh]

/-! ### The obligations -/

/-- Settles O31: the fetch of the next step reads the placed word; array 0 alone was written. -/
theorem placedWordIsRunNext : Obligations.PlacedWordIsRunNext := by
  unfold Obligations.PlacedWordIsRunNext
  intro s w
  rw [s.withFetchWord_toNat w]
  exact ⟨step_of_fetch_ok rfl (placeInstruction_fetch s w), rfl, fun _ _ => rfl,
    fun _ => placeInstruction_array? s w, rfl, rfl, rfl⟩

/-- Settles O27: the resumption leaves the input's value in the register, and the range check of OUT
decides. -/
theorem inputThenOutputEchoes : Obligations.InputThenOutputEchoes := by
  unfold Obligations.InputThenOutputEchoes
  intro c s t i hs h
  rw [supplyInput_of_waiting hs] at h
  cases h
  rw [exec_out, s.reg_resume_self]
  refine ⟨?byte, ?endOfInput⟩
  case byte =>
    rintro b rfl
    have hvalue := inputValue_byte_toNat b
    obtain ⟨b', hcheck, hb'⟩ := outputByte_of_le (v := inputValue (.byte b)) (by omega)
    obtain rfl : b' = b := BitVec.eq_of_toNat_eq (hb'.trans hvalue)
    exact ⟨_, State.attempt_of_ok _ _ hcheck, rfl, rfl, BitVec.add_assoc s.pc 1#32 1#32⟩
  case endOfInput =>
    rintro rfl
    have hbig : 255 < (inputValue .endOfInput).toNat := by decide
    exact ⟨_, State.attempt_of_error _ _ (outputByte_of_gt hbig), rfl, rfl, rfl⟩

/-- Settles O56: the end of a run is not Idle, is the same for every budget that reaches it, and is where it
started outside Idle. -/
theorem runEndsOutsideIdleWithAllOutput : Obligations.RunEndsOutsideIdleWithAllOutput := by
  unfold Obligations.RunEndsOutsideIdleWithAllOutput
  refine ⟨?ends, ?unique, fun s hs => ⟨0, s, rfl, hs, rfl⟩⟩
  case ends =>
    rintro s out t ⟨k, u, -, hu, hcollect⟩
    cases hcollect
    exact ⟨hu, rfl⟩
  case unique =>
    rintro s out out' t t' ⟨j, u, hj, hu, hcollect⟩ ⟨k, u', hk, hu', hcollect'⟩
    rw [runSteps_end_unique hj hk hu hu', hcollect'] at hcollect
    cases hcollect
    exact ⟨rfl, rfl⟩

/-- Settles O57: the second run goes on from where the first one's steps end, with the bytes handed over put
back in front. -/
theorem runInIncrementsIsOneRun : Obligations.RunInIncrementsIsOneRun := by
  unfold Obligations.RunInIncrementsIsOneRun
  intro j k s t u o₁ o₂ hj hk hfirst hsecond
  obtain ⟨t', hsteps, rfl, rfl⟩ := (runBounded_eq_next_iff hj).1 hfirst
  obtain ⟨u', hsteps', rfl, rfl⟩ := (runBounded_eq_next_iff hk).1 hsecond
  have hback : ({ t' with outq := [] } : State).withHostSide t'.outq id = t' := by
    rw [State.withHostSide, List.append_nil]; rfl
  have hrest : runSteps k t' = .next (u'.withHostSide t'.outq id) := by
    rw [← runSteps_withHostSide t'.outq id hsteps', hback]
  have hboth : runSteps (j + k) s = .next (u'.withHostSide t'.outq id) := by
    rw [runSteps_add hsteps, hrest]
  exact (runBounded_eq_next_iff (hj.trans (Nat.le_add_right j k))).2 ⟨_, hboth, rfl, rfl⟩

/-- Settles O58: the refusal, the names of the states, and a run that makes no step. -/
theorem hostCallsOutsideTheirState : Obligations.HostCallsOutsideTheirState := by
  unfold Obligations.HostCallsOutsideTheirState
  intro s
  obtain ⟨hidle, hhalted, hwaiting, hfailed⟩ := stateQuery_names_state s
  exact ⟨supplyInput_refused, hidle, hhalted, hwaiting, hfailed, fun _ => runBounded_of_not_idle⟩

/-- Settles O59: a clone is the machine on another host side, which no step of a run looks at. -/
theorem cloneBehavesAlike : Obligations.CloneBehavesAlike := by
  unfold Obligations.CloneBehavesAlike
  refine fun s => ⟨⟨rfl, rfl, rfl, rfl, rfl, rfl⟩, fun k out t h => ?runs, fun i t h => ?input⟩
  case runs =>
    have hk := one_le_of_runBounded h
    obtain ⟨u, hu, rfl, rfl⟩ := (runBounded_eq_next_iff hk).1 h
    exact (runBounded_eq_next_iff hk).2 ⟨clone u, runSteps_clone hu, rfl, rfl⟩
  case input =>
    obtain ⟨c, hc⟩ := waiting_of_supplyInput h
    have hc' : (clone s).state = .waiting c := hc
    rw [supplyInput_of_waiting hc] at h
    cases h
    exact supplyInput_of_waiting hc' i

end Sys2Proof.Machine
end
